-- ==== Sys2Proof/Word.lean ====
section
/-! DEFINITION. The word types of the block and the level of a line.

Spec: 00_scope.md R8 (bits, booleans and levels), 10_state.md R10 (widths). -/

namespace Sys2Proof

/-- A byte: a scan code, a KeyEncoding, the accumulator (R8). -/
abbrev Byte := BitVec 8

/-- A 6-bit switch address (R10, R22). -/
abbrev Addr := BitVec 6

/-- The level of a line, H or L (R8). -/
inductive Level where
  | low
  | high
  deriving DecidableEq, Repr

/-- `not H = L` (R8). -/
def Level.inv : Level → Level
  | .low => .high
  | .high => .low

/-- 1 = H, 0 = L (R70). -/
def Level.ofBool : Bool → Level
  | true => .high
  | false => .low

/-- H is the bit 1, L the bit 0 (R66). -/
def Level.toBool : Level → Bool
  | .low => false
  | .high => true

/-- The real direction of a transition of `PS2_CLK` (40_frame_decoder.md R80). -/
inductive Polarity where
  | fall
  | rise
  deriving DecidableEq, Repr

/-- The level the clock line has after a transition in this direction. -/
def Polarity.level : Polarity → Level
  | .fall => .low
  | .rise => .high

end Sys2Proof
end

