-- ==== Sys2Proof/Config.lean ====
section
/-! DEFINITION. The configuration record `CFG` (00_scope.md R5): everything the build fixes and the spec leaves
to it. A configuration is plain data; the tables are sparse lists, and an absent key reads as the spec's "no key"
or "not remapped" value (log 17). The functions that read the tables are in Machine/Operands.lean, the
well-formedness conditions in Machine/Domain.lean. -/

namespace Sys2Proof

/-- F4 (30_encoding.md R63): the ordered pair of KeyEncoding bytes of a key. -/
structure KeyCode where
  pri : Byte
  sec : Byte
  deriving DecidableEq, Repr

/-- The values of `PUNCT_DELTA`: 0, +1, -1, -3, +4 (R5). -/
inductive PunctDelta where
  | none
  | plusOne
  | minusOne
  | minusThree
  | plusFour
  deriving DecidableEq, Repr

/-- The values of `DIGIT_DELTA`: 0, +2, +3, +8 (R5). -/
inductive DigitDelta where
  | none
  | plusTwo
  | plusThree
  | plusEight
  deriving DecidableEq, Repr

/-- One entry of `MACROS` (R5; 43_macro_player.md R160): the sequence with its terminating 0x00. -/
structure MacroEntry where
  trigger : Byte
  seq : List Byte
  deriving DecidableEq, Repr

/-- The record `CFG` (R5), its fields under the spec's names. -/
structure Config where
  codeLo : Byte
  codeHi : Byte
  rshiftCode : Byte
  plain : List (Byte × KeyCode)
  ext : List (Byte × KeyCode)
  punctDelta : List ((Bool × Byte) × PunctDelta)
  digitDelta : List (Byte × DigitDelta)
  capsAddr : Addr
  symAddr : Addr
  symKeyEnc : Byte
  rshiftClearsExt : Bool
  allowZeroAddrMod : Bool
  macros : List MacroEntry
  strobeActive : Level
  resetActive : Level
  dataClosed : Level
  tAddrSettle : Nat
  tHold : Nat
  tResetPulse : Nat
  tKeySettle : Nat
  tMacroDwell : Nat
  tMacroSettle : Nat
  deriving DecidableEq, Repr

/-- `TESTCFG` of 95_test_vectors.md part 2, the one configuration the spec writes out in full. Its durations are
symbolic there; the numbers here only meet the constraints of R5. DESIGN CHOICE (log 2): it is the configuration of
`State.reset`, and it claims nothing about the original's tables. -/
def Config.testcfg : Config where
  codeLo := 0x00#8
  codeHi := 0x84#8
  rshiftCode := 0x59#8
  plain := [
    (0x0D#8, ⟨0xA3#8, 0xA4#8⟩), (0x0E#8, ⟨0x61#8, 0xA2#8⟩), (0x14#8, ⟨0x82#8, 0x00#8⟩),
    (0x16#8, ⟨0x18#8, 0x00#8⟩), (0x1C#8, ⟨0x08#8, 0x00#8⟩), (0x1E#8, ⟨0x19#8, 0x00#8⟩),
    (0x26#8, ⟨0x1A#8, 0x00#8⟩), (0x4C#8, ⟨0xA6#8, 0x00#8⟩), (0x50#8, ⟨0xA5#8, 0x00#8⟩),
    (0x66#8, ⟨0x5C#8, 0x00#8⟩)]
  ext := [(0x75#8, ⟨0x68#8, 0x00#8⟩)]
  punctDelta := [((false, 0x4C#8), .plusFour)]
  digitDelta := [(0x18#8, .plusEight), (0x19#8, .plusTwo), (0x1A#8, .plusThree)]
  capsAddr := 0x01#6
  symAddr := 0x02#6
  symKeyEnc := 0x82#8
  rshiftClearsExt := false
  allowZeroAddrMod := false
  macros := [⟨0x05#8, [0x1C#8, 0x16#8, 0x00#8]⟩]
  strobeActive := .high
  resetActive := .high
  dataClosed := .high
  tAddrSettle := 1
  tHold := 1
  tResetPulse := 1
  tKeySettle := 1
  tMacroDwell := 1
  tMacroSettle := 2

end Sys2Proof
end

