-- ==== Sys2Proof/Syntax.lean ====
section
/-! DEFINITION. The operations of the block (the checklist's instructions), one constructor per row of
spec/opcode_table.json, and the input items they are read from.

The block runs no program: an operation is selected by an input item AND the state it meets (00_scope.md R7,
30_encoding.md R68, 40_frame_decoder.md R85), so what stands for the instruction word is an `Input`, and decoding
also reads a `Selector`, the few registers that select. -/

namespace Sys2Proof

/-- `edgePhase` (10_state.md R11): which half of a bit cell the next event is taken to be. -/
inductive EdgePhase where
  | falling
  | rising
  deriving DecidableEq, Repr

/-- `ts` (10_state.md R16). -/
inductive TransitionState where
  | idle
  | pressed
  | released
  deriving DecidableEq, Repr

/-- The cause of a ProtocolDesync (60_exceptions.md R170); recorded nowhere (R172). -/
inductive Cause where
  | dupPrefix
  | badCode
  deriving DecidableEq, Repr

/-- The operations. Each constructor names its row of the opcode table and the rule that defines it. -/
inductive Instr where
  /-- FRAME (R60, R70): the eleven cells as the table's pattern writes them, cell 0 in bit 10, cell 10 in bit 0. -/
  | frame (cells : BitVec 11)
  /-- KEYENC (R62): one KeyEncoding byte. -/
  | keyEnc (enc : Byte)
  /-- EDGE.F (R82). -/
  | edgeF (d : Level)
  /-- EDGE.R (R83). -/
  | edgeR (d : Level)
  /-- EDGE.R.DONE (R84). -/
  | edgeRDone (d : Level)
  /-- PFX.E0 (R103). -/
  | pfxE0
  /-- PFX.E0.DUP (R104). -/
  | pfxE0Dup
  /-- PFX.F0 (R105). -/
  | pfxF0
  /-- MACRO (R106): the trigger code. -/
  | macroTrigger (code : Byte)
  /-- RSHIFT.MAKE (R107). -/
  | rshiftMake
  /-- RSHIFT.BREAK (R108). -/
  | rshiftBreak
  /-- KEY.MAKE (R114). -/
  | keyMake (code : Byte)
  /-- KEY.BREAK (R117). -/
  | keyBreak (code : Byte)
  /-- BADCODE (R119). -/
  | badCode (code : Byte)
  /-- SW.SET (R142). -/
  | swSet (a : Addr) (closed : Bool)
  /-- SW.RESET (R141). -/
  | swReset
  /-- MACRO.PLAY (R161): the bytes of the sequence with the terminating 0x00. -/
  | macroPlay (seq : List Byte)
  /-- RECOVER (R172). -/
  | recover (cause : Cause)
  /-- BOOT (R192). -/
  | boot
  deriving DecidableEq, Repr

/-- Where an input item enters the block, which fixes the format its bytes are in. The first three are the items of
30_encoding.md R70; `play` and `boot` are the Mainline's call and power-on (60_exceptions.md R177, 70 R192); the
rest are calls of one procedure by itself (log 11). -/
inductive Port where
  /-- `EDGE d` with the real direction of the transition (R80). -/
  | edge (pol : Polarity)
  /-- `BYTE 0xNN`: one call `Decode(0xNN)`. -/
  | code
  /-- `FRAME`: eleven cells. -/
  | frame
  /-- One KeyEncoding byte. -/
  | keyEnc
  /-- `SwSet(a, closed)`. -/
  | swSet
  /-- `SwReset()`. -/
  | swReset
  /-- `Play(seq)`. -/
  | play
  /-- `raise ProtocolDesync(cause)`. -/
  | recover (cause : Cause)
  /-- Power-on. -/
  | boot
  deriving DecidableEq, Repr

/-- One input item: a port and its raw bytes. The format's bit 0 is bit 0 of the first byte, and a later byte's
bits count on from it. -/
structure Input where
  port : Port
  bytes : List Byte
  deriving DecidableEq, Repr

/-- What selects an operation beside the item: the configuration and the registers read by the selection
conditions of R68 and R85. -/
structure Selector where
  cfg : Config
  edgePhase : EdgePhase
  bitCount : BitVec 4
  ext : Bool
  ts : TransitionState
  deriving DecidableEq, Repr

end Sys2Proof
end

