-- ==== Sys2Proof/Machine/Operands.lean ====
section
/-! DEFINITION. Operand forms: the fixed constants, the bit fields of a KeyEncoding, the byte addition of the two
remaps, the table reads, and the cells of a frame. No machine state here. -/

namespace Sys2Proof

/-- `FRAME_BITS` (R5). -/
def frameBits : Nat := 11

/-- The count the decoder re-arms to: `FRAME_BITS` (R84). -/
def armedCount : BitVec 4 := 11#4

/-- `WIN_LO` (R5, D4). -/
def winLo : BitVec 4 := 3#4

/-- `WIN_HI` (R5, D4). -/
def winHi : BitVec 4 := 10#4

/-- A data cell (R60, R82): `WIN_LO <= bitCount <= WIN_HI`. -/
def inWindow (n : BitVec 4) : Bool := decide (winLo ≤ n) && decide (n ≤ winHi)

/-- The accumulator after a data cell (R82): a logical right shift with the sample inserted at bit 7. -/
def shiftIn (acc : Byte) (d : Level) : Byte :=
  (acc >>> 1) ||| (match d with | .high => 0x80#8 | .low => 0x00#8)

/-- `enc[7]` (R62): the target's SYM key is required. -/
def needsSym (enc : Byte) : Bool := enc.getLsbD 7

/-- `enc[6]` (R62): the target's CAPS key is required. -/
def needsCaps (enc : Byte) : Bool := enc.getLsbD 6

/-- `enc[5:0]` (R67): the switch address of a KeyEncoding. -/
def encAddr (enc : Byte) : Addr := enc.extractLsb' 0 6

/-- `add8(b, d) = (b + d) mod 256` with a signed delta (R8). -/
def add8 (b : Byte) (d : Int) : Byte := BitVec.ofInt 8 (b.toNat + d)

/-- A punctuation delta as the integer it stands for (R5). -/
def PunctDelta.value : PunctDelta → Int
  | .none => 0
  | .plusOne => 1
  | .minusOne => -1
  | .minusThree => -3
  | .plusFour => 4

/-- A digit-row delta as the integer it stands for (R5). -/
def DigitDelta.value : DigitDelta → Int
  | .none => 0
  | .plusTwo => 2
  | .plusThree => 3
  | .plusEight => 8

/-- The entry of a code with no key: `(0, 0)` (R5, D13). -/
def noKey : KeyCode := ⟨0x00#8, 0x00#8⟩

/-- A table read, total on 0..255 (R5). -/
def tableAt (t : List (Byte × KeyCode)) (code : Byte) : KeyCode := (t.lookup code).getD noKey

/-- `EXT[code]` when `ext`, else `PLAIN[code]` (R111). -/
def keyTable (c : Config) (ext : Bool) (code : Byte) : KeyCode :=
  if ext then tableAt c.ext code else tableAt c.plain code

/-- `PUNCT_DELTA(ext, code)` (R5, R110). -/
def punctDeltaAt (c : Config) (ext : Bool) (code : Byte) : PunctDelta :=
  (c.punctDelta.lookup (ext, code)).getD .none

/-- `DIGIT_DELTA(enc)` (R5, R113). -/
def digitDeltaAt (c : Config) (enc : Byte) : DigitDelta := (c.digitDelta.lookup enc).getD .none

/-- A KeyEncoding moved by its digit-row delta (R113). -/
def relocated (c : Config) (enc : Byte) : Byte := add8 enc (digitDeltaAt c enc).value

/-- The entry of `MACROS` bound to a code (R100, R106). -/
def macroFor (c : Config) (code : Byte) : Option MacroEntry := c.macros.find? (fun m => m.trigger == code)

/-- Some entry of `MACROS` has this trigger (R68 priority 3). -/
def isTrigger (c : Config) (code : Byte) : Bool := (macroFor c code).isSome

/-- The valid key range, both bounds exclusive (R68 priority 5). -/
def inKeyRange (c : Config) (code : Byte) : Bool := decide (c.codeLo < code) && decide (code < c.codeHi)

/-- An encoding with a modifier bit and a zero address: 0x40, 0x80, 0xC0 (R122). -/
def isZeroAddrMod (enc : Byte) : Bool := enc == 0x40#8 || enc == 0x80#8 || enc == 0xC0#8

/-- The entries a playback feeds: those before the first 0x00 (R65, R161). -/
def seqEntries (seq : List Byte) : List Byte := seq.takeWhile (· != 0x00#8)

/-- A sequence has its sentinel zero (R65). -/
def seqTerminated (seq : List Byte) : Bool := seq.contains 0x00#8

/-- The level of cell `k` of a frame (R60): cell 0 is the leftmost bit of the table's pattern. -/
def frameCell (cells : BitVec 11) (k : Nat) : Level := Level.ofBool (cells.getLsbD (10 - k))

/-- The eleven cells in order of arrival: start, data bits 0 to 7, parity, stop (R60). -/
def frameCells (cells : BitVec 11) : List Level := (List.range frameBits).map (frameCell cells)

/-- The odd parity bit of R70 (G3: general knowledge; the block never reads it). -/
def oddParity (b : Byte) : Bool :=
  !(b.getLsbD 0 ^^ b.getLsbD 1 ^^ b.getLsbD 2 ^^ b.getLsbD 3 ^^ b.getLsbD 4 ^^ b.getLsbD 5 ^^ b.getLsbD 6 ^^ b.getLsbD 7)

/-- The well-formed frame carrying a byte (R70): start 0, the data bits least significant first, odd parity, stop 1. -/
def frameOf (b : Byte) : BitVec 11 :=
  0#1 ++ b.reverse ++ BitVec.ofBool (oddParity b) ++ 1#1

end Sys2Proof
end

