-- ==== Sys2Proof/Machine/Domain.lean ====
section
/-! DEFINITION. Which configurations are in the domain: the constraints of 00_scope.md R5 and the refusal of
zero-address encodings (41_translator.md R122). "A configuration that breaks one is refused." One check per row of
R5's constraint column; `Config.wf` is their conjunction. -/

namespace Sys2Proof

/-- `CODE_LO < CODE_HI`, `CODE_HI <= 0xE0` (R5). -/
def Config.rangeOk (c : Config) : Bool := decide (c.codeLo < c.codeHi) && decide (c.codeHi ≤ 0xE0#8)

/-- `RSHIFT_CODE` is not 0xE0, not 0xF0, not a macro trigger (R5). -/
def Config.rshiftOk (c : Config) : Bool :=
  c.rshiftCode != 0xE0#8 && c.rshiftCode != 0xF0#8 && !isTrigger c c.rshiftCode

/-- `DIGIT_DELTA(0) = 0` (R5). -/
def Config.digitZeroOk (c : Config) : Bool := digitDeltaAt c 0x00#8 == .none

/-- `CAPS_ADDR` and `SYM_ADDR` are distinct (R5). -/
def Config.modifiersOk (c : Config) : Bool := c.capsAddr != c.symAddr

/-- `SYM_KEY_ENC` has bit 7 set (R5). -/
def Config.symKeyOk (c : Config) : Bool := needsSym c.symKeyEnc

/-- A sequence that can be played (43_macro_player.md R161, R164): it has its sentinel zero, and no entry before it is a
trigger. Bytes after the first 0x00 are never read. -/
def Config.playOk (c : Config) (seq : List Byte) : Bool :=
  seqTerminated seq && (seqEntries seq).all (fun e => !isTrigger c e)

/-- A sequence of `MACROS`: it ends at its first 0x00 and holds no trigger (R5, D27). DESIGN CHOICE (log 24): entries that
select no `KEY` are accepted, as R5's constraint list and R162 have it, where R165's last sentence has key codes only. -/
def Config.seqOk (c : Config) (seq : List Byte) : Bool := seq == seqEntries seq ++ [0x00#8] && c.playOk seq

/-- Triggers are distinct, none is 0x00, 0xE0 or 0xF0, every sequence is legal (R5). That none is `RSHIFT_CODE` is
`Config.rshiftOk`. -/
def Config.macrosOk (c : Config) : Bool :=
  decide ((c.macros.map MacroEntry.trigger).Nodup) &&
  c.macros.all (fun m => m.trigger != 0x00#8 && m.trigger != 0xE0#8 && m.trigger != 0xF0#8 && c.seqOk m.seq)

/-- Every duration is positive and `T_MACRO_SETTLE > T_MACRO_DWELL` (R5). -/
def Config.durationsOk (c : Config) : Bool :=
  decide (0 < c.tAddrSettle) && decide (0 < c.tHold) && decide (0 < c.tResetPulse) && decide (0 < c.tKeySettle) &&
  decide (0 < c.tMacroDwell) && decide (c.tMacroDwell < c.tMacroSettle)

/-- An encoding that is legal in a table, as it stands and relocated (R122). -/
def Config.encodingOk (c : Config) (enc : Byte) : Bool := !isZeroAddrMod enc && !isZeroAddrMod (relocated c enc)

/-- No zero-address encoding with a modifier bit in `PLAIN`, in `EXT`, as `SYM_KEY_ENC` or as the result of a
relocation, unless `ALLOW_ZERO_ADDR_MOD` (R122). -/
def Config.zeroAddrOk (c : Config) : Bool :=
  c.allowZeroAddrMod ||
  (!isZeroAddrMod c.symKeyEnc && (c.plain ++ c.ext).all (fun e => c.encodingOk e.2.pri && c.encodingOk e.2.sec))

/-- The configuration is in the model's domain (R5). -/
def Config.wf (c : Config) : Bool :=
  c.rangeOk && c.rshiftOk && c.digitZeroOk && c.modifiersOk && c.symKeyOk && c.macrosOk && c.durationsOk &&
  c.zeroAddrOk

end Sys2Proof
end

