-- ==== Sys2Proof/Machine/Select.lean ====
section
/-! DEFINITION. The opcode map: the classification of a scan-code byte (30_encoding.md R68, 41_translator.md R100,
R102) and the selection of a half-cell operation by the decoder's position (40_frame_decoder.md R85). -/

namespace Sys2Proof

/-- The operation `Decode(code)` performs (the last column of R68). -/
inductive CodeClass where
  | pfxE0
  | pfxE0Dup
  | pfxF0
  | trigger
  | rshiftMake
  | rshiftBreak
  | keyMake
  | keyBreak
  | bad
  deriving DecidableEq, Repr

/-- The tests of R68 in their order; the break forms exactly when `ts == Released` (R102). -/
def classify (sel : Selector) (code : Byte) : CodeClass :=
  if code = 0xE0#8 then (if sel.ext then .pfxE0Dup else .pfxE0)
  else if code = 0xF0#8 then .pfxF0
  else if isTrigger sel.cfg code then .trigger
  else if code = sel.cfg.rshiftCode then (if sel.ts = .released then .rshiftBreak else .rshiftMake)
  else if inKeyRange sel.cfg code then (if sel.ts = .released then .keyBreak else .keyMake)
  else .bad

/-- The half-cell operations (R82, R83, R84). -/
inductive EdgeOp where
  | f
  | r
  | rDone
  deriving DecidableEq, Repr

/-- `bitCount` is a position between steps: 1..11 (10_state.md R12). -/
def positionOk (n : BitVec 4) : Bool := decide (1#4 ≤ n) && decide (n ≤ armedCount)

/-- The decoder step's choice (R85); nothing where the rules give the position no meaning (U12). -/
def selectEdge (sel : Selector) : Option EdgeOp :=
  if !positionOk sel.bitCount then none
  else match sel.edgePhase with
    | .falling => some .f
    | .rising => if 2#4 ≤ sel.bitCount then some .r else some .rDone

end Sys2Proof
end

