-- ==== Sys2Proof/WellFormed.lean ====
section
/-! DEFINITION. Which instructions are well formed in a position: the "selected when" condition of the operation's
rule and the conditions on its operands. The decoder answers only with such instructions, and every one of them has
an item that selects it. The configuration's own conditions are `Config.wf` (Machine/Domain.lean). -/

namespace Sys2Proof

/-- The selection condition and the operand conditions of an operation. -/
def Instr.wf (sel : Selector) : Instr → Bool
  | .frame _ => true
  | .keyEnc enc => !isZeroAddrMod enc || sel.cfg.allowZeroAddrMod
  | .edgeF _ => decide (selectEdge sel = some .f)
  | .edgeR _ => decide (selectEdge sel = some .r)
  | .edgeRDone _ => decide (selectEdge sel = some .rDone)
  | .pfxE0 => !sel.ext
  | .pfxE0Dup => sel.ext
  | .pfxF0 => true
  | .macroTrigger code => decide (classify sel code = .trigger)
  | .rshiftMake => decide (classify sel sel.cfg.rshiftCode = .rshiftMake)
  | .rshiftBreak => decide (classify sel sel.cfg.rshiftCode = .rshiftBreak)
  | .keyMake code => decide (classify sel code = .keyMake)
  | .keyBreak code => decide (classify sel code = .keyBreak)
  | .badCode code => decide (classify sel code = .bad)
  | .swSet _ _ => true
  | .swReset => true
  | .macroPlay seq => sel.cfg.playOk seq
  | .recover _ => true
  | .boot => true

end Sys2Proof
end

