-- ==== Sys2Proof/Decode.lean ====
section
/-! DEFINITION. The decoder, total on any bytes, rejecting by name; the encoder; and the host's entry
`decodeTableWord`.

The classification of a scan-code byte and the selection of the half-cell operation are in Machine/Select.lean,
because the machine's own `Decode(code)` and decoder step use them too. -/

namespace Sys2Proof

/-- Why the bytes of an item are no input of its format. -/
inductive DecodeError where
  /-- The item has another number of bytes than its format (30_encoding.md section 1). -/
  | wrongLength
  /-- A bit that the format does not have is set (30_encoding.md R60, R64; a clock-edge sample is one bit). -/
  | strayBits
  /-- The decoder registers hold a `bitCount` that no position between steps has (R85, U12). -/
  | decoderPosition
  /-- A KeyEncoding with a modifier bit and a zero address, not allowed by the configuration (R122, U4). -/
  | zeroAddressEncoding
  /-- A macro sequence with no sentinel zero (R65). -/
  | unterminatedSequence
  /-- A macro sequence one of whose entries is a trigger (R164, U9). -/
  | recursiveSequence
  deriving DecidableEq, Repr

/-- The operation a half-cell selection stands for, with the sampled level (R82, R83, R84). -/
def EdgeOp.instr : EdgeOp → Level → Instr
  | .f, d => .edgeF d
  | .r, d => .edgeR d
  | .rDone, d => .edgeRDone d

/-- The operation a class of scan-code byte stands for (R68). -/
def CodeClass.instr : CodeClass → Byte → Instr
  | .pfxE0, _ => .pfxE0
  | .pfxE0Dup, _ => .pfxE0Dup
  | .pfxF0, _ => .pfxF0
  | .trigger, code => .macroTrigger code
  | .rshiftMake, _ => .rshiftMake
  | .rshiftBreak, _ => .rshiftBreak
  | .keyMake, code => .keyMake code
  | .keyBreak, code => .keyBreak code
  | .bad, code => .badCode code

/-- A clock-edge item is one bit, the sampled level: any other bit set is a stray bit. -/
def hasStrayEdgeBits (b : Byte) : Bool := b.extractLsb' 1 7 != 0#7

/-- A clock-edge item (opcode table, rows EDGE.*; R85). -/
def decodeEdge (sel : Selector) (b : Byte) : Except DecodeError Instr :=
  if hasStrayEdgeBits b then .error .strayBits
  else match selectEdge sel with
    | some op => .ok (op.instr (Level.ofBool (b.getLsbD 0)))
    | none => .error .decoderPosition

/-- A frame: eleven bits in two bytes (R60). -/
def decodeFrame (lo hi : Byte) : Except DecodeError Instr :=
  if hi.extractLsb' 3 5 ≠ 0#5 then .error .strayBits else .ok (.frame (hi.extractLsb' 0 3 ++ lo))

/-- A KeyEncoding byte (R62), refused where R122 refuses it. -/
def decodeKeyEnc (sel : Selector) (b : Byte) : Except DecodeError Instr :=
  if isZeroAddrMod b && !sel.cfg.allowZeroAddrMod then .error .zeroAddressEncoding else .ok (.keyEnc b)

/-- A switch-bus transaction (R64): `c c c r r r d`, seven bits. -/
def decodeSwSet (b : Byte) : Except DecodeError Instr :=
  if b.getLsbD 7 then .error .strayBits else .ok (.swSet (b.extractLsb' 1 6) (b.getLsbD 0))

/-- A macro sequence (R65). Bytes after its first zero are no entries and are kept unread (43_macro_player.md R161); a
trigger among its entries has no meaning (R164). -/
def decodeSeq (sel : Selector) (seq : List Byte) : Except DecodeError Instr :=
  if !seqTerminated seq then .error .unterminatedSequence
  else if (seqEntries seq).any (isTrigger sel.cfg) then .error .recursiveSequence
  else .ok (.macroPlay seq)

/-- The decoder: the operation an input item selects in the given position, or the reason why it selects none. -/
def decode (sel : Selector) (x : Input) : Except DecodeError Instr :=
  match x.port, x.bytes with
  | .edge _, [b] => decodeEdge sel b
  | .edge _, _ => .error .wrongLength
  | .code, [b] => .ok ((classify sel b).instr b)
  | .code, _ => .error .wrongLength
  | .frame, [lo, hi] => decodeFrame lo hi
  | .frame, _ => .error .wrongLength
  | .keyEnc, [b] => decodeKeyEnc sel b
  | .keyEnc, _ => .error .wrongLength
  | .swSet, [b] => decodeSwSet b
  | .swSet, _ => .error .wrongLength
  | .swReset, [] => .ok .swReset
  | .swReset, _ => .error .wrongLength
  | .play, seq => decodeSeq sel seq
  | .recover cause, [] => .ok (.recover cause)
  | .recover _, _ => .error .wrongLength
  | .boot, [] => .ok .boot
  | .boot, _ => .error .wrongLength

/-- The byte of a clock-edge item: bit 0 is the level (H = 1). -/
def edgeByte (d : Level) : Byte := BitVec.zeroExtend 8 (BitVec.ofBool d.toBool)

/-- The byte of a switch-bus transaction: address in bits 6:1, data in bit 0 (R64). -/
def swSetByte (a : Addr) (closed : Bool) : Byte := 0#1 ++ a ++ BitVec.ofBool closed

/-- The encoder: the item that selects an operation. An edge is given the direction its operation expects; no rule
reads it (R81). The operations whose byte the table fixes, or names by a parameter, get that byte (R68). -/
def encode (c : Config) : Instr → Input
  | .frame cells => ⟨.frame, [cells.extractLsb' 0 8, BitVec.zeroExtend 8 (cells.extractLsb' 8 3)]⟩
  | .keyEnc enc => ⟨.keyEnc, [enc]⟩
  | .edgeF d => ⟨.edge .fall, [edgeByte d]⟩
  | .edgeR d => ⟨.edge .rise, [edgeByte d]⟩
  | .edgeRDone d => ⟨.edge .rise, [edgeByte d]⟩
  | .pfxE0 => ⟨.code, [0xE0#8]⟩
  | .pfxE0Dup => ⟨.code, [0xE0#8]⟩
  | .pfxF0 => ⟨.code, [0xF0#8]⟩
  | .macroTrigger code => ⟨.code, [code]⟩
  | .rshiftMake => ⟨.code, [c.rshiftCode]⟩
  | .rshiftBreak => ⟨.code, [c.rshiftCode]⟩
  | .keyMake code => ⟨.code, [code]⟩
  | .keyBreak code => ⟨.code, [code]⟩
  | .badCode code => ⟨.code, [code]⟩
  | .swSet a closed => ⟨.swSet, [swSetByte a closed]⟩
  | .swReset => ⟨.swReset, []⟩
  | .macroPlay seq => ⟨.play, seq⟩
  | .recover cause => ⟨.recover cause, []⟩
  | .boot => ⟨.boot, []⟩

/-- The position right after reset (10_state.md R27), in the configuration of `State.reset` (log 2). -/
def Selector.reset : Selector where
  cfg := Config.testcfg
  edgePhase := .falling
  bitCount := armedCount
  ext := false
  ts := .idle

/-- The item a word of the opcode table stands for (log 15): the reset pulse, which has no payload, when the row has no
bits; a byte given to `Decode` when it has at most eight; a frame when it has more. -/
def tableInput (nbits w : Nat) : Input :=
  if nbits = 0 then ⟨.swReset, []⟩
  else if nbits ≤ 8 then ⟨.code, [BitVec.ofNat 8 w]⟩
  else ⟨.frame, [BitVec.ofNat 8 w, BitVec.ofNat 8 (w / 256)]⟩

/-- The host's entry: what the decoder reads from a word of the opcode table, in the position after reset. -/
def decodeTableWord (nbits w : Nat) : Option Instr :=
  match decode Selector.reset (tableInput nbits w) with
  | .ok i => some i
  | .error _ => none

end Sys2Proof
end

