-- ==== Sys2Proof/Machine/State.lean ====
section
/-! DEFINITION. The state of the machine (10_state.md R10) as plain data, its reset value (R27), the reasons for a
stop, and one setter per register.

Beside the registers of R10, State carries the configuration, the queue of input items and the output traces,
because the step function of 00_scope.md R6 takes and returns them and `step` here has a fixed type (logs 1, 5, 7). -/

namespace Sys2Proof.Machine

/-- The switch space (20_memory.md R49) as a sparse list: 0x01 at the address of every closed point. An unlisted
address reads as 0x00, open (log 16). -/
abbrev Memory := List Host.Cell

/-- The named durations (00_scope.md R5), the label of a `Delay` item. -/
inductive Duration where
  | tAddrSettle
  | tHold
  | tResetPulse
  | tKeySettle
  | tMacroDwell
  | tMacroSettle
  deriving DecidableEq, Repr

/-- An item of the transaction-level trace (42_switch_driver.md R153). -/
inductive TraceItem where
  | reset
  | set (a : Addr) (closed : Bool)
  | delay (t : Duration)
  deriving DecidableEq, Repr

/-- An item of the pin-level trace (42_switch_driver.md R141, R143, R153). -/
inductive PinItem where
  | addr (a : Addr)
  | data (l : Level)
  | strobe (l : Level)
  | resetLine (l : Level)
  | delay (t : Duration)
  deriving DecidableEq, Repr

/-- The state of the machine. -/
structure State where
  /-- `CFG` (R5, R26); no operation writes it. -/
  cfg : Config
  /-- Which half of a cell the next event is (R11). -/
  edgePhase : EdgePhase
  /-- Cells left in the frame (R11, R12). -/
  bitCount : BitVec 4
  /-- The accumulator (R11). -/
  acc : Byte
  /-- ExtendedFlag (R15). -/
  ext : Bool
  /-- TransitionState (R16). -/
  ts : TransitionState
  /-- explicit-SYM-held (R17). -/
  symHeld : Bool
  /-- digit-row-remap-applied (R17). -/
  digitApplied : Bool
  /-- right-shift-held (R17). -/
  rsHeld : Bool
  /-- right-shift-punctuation-remap-applied (R17). -/
  rsPunctApplied : Bool
  /-- The last byte given to `Decode` (R18). -/
  lastCode : Byte
  /-- The enable of the one interrupt source (R19). -/
  irqEn : Bool
  /-- A decoder step is running (R20). -/
  busy : Bool
  /-- Pin `ADDR[5:0]` (R22). -/
  addr : Addr
  /-- Pin `DATA` (R22). -/
  data : Level
  /-- Pin `STROBE` (R22). -/
  strobe : Level
  /-- Pin `RESETLINE` (R22). -/
  resetLine : Level
  /-- Input pin `PS2_CLK` (R23). -/
  ps2Clk : Level
  /-- Input pin `PS2_DAT` (R23). -/
  ps2Dat : Level
  /-- The switch array `Sw[0..63]` (R24). -/
  sw : Memory
  /-- Input items not yet taken, next first (R26; log 5). -/
  inputs : List Input
  /-- Transaction-level output since reset, oldest first (R8, R153; log 7). -/
  trace : List TraceItem
  /-- Pin-level output since reset, oldest first (R153; log 7). -/
  pinTrace : List PinItem
  deriving DecidableEq, Repr

/-- Reasons to stop with a fault. There is none: "no crash path" (60_exceptions.md R171); the one error of the block,
ProtocolDesync, is recovered inside the step (R172). Safe. -/
inductive Fault where
  deriving DecidableEq, Repr

/-- Reasons for which an item or an operation has no meaning. All safe: the machine stops and nothing is claimed. -/
inductive Refusal where
  /-- Raised by no meaning: an arm of `exec` whose instruction is not modelled would answer it. -/
  | notModelled (mnemonic : String)
  /-- Raised by the fetch: the configuration breaks a constraint of 00_scope.md R5 ("refused"). -/
  | illFormedConfig
  /-- Raised by the fetch and by FRAME: the decoder names the reason. -/
  | undecodable (e : DecodeError)
  /-- Raised by MACRO.PLAY and MACRO: an entry of the sequence is itself a trigger (43_macro_player.md R164). -/
  | recursivePlayback
  /-- Raised by MACRO.PLAY and MACRO: the sequence has no sentinel zero (30_encoding.md R65). -/
  | unterminatedSequence
  /-- Raised by MACRO: the code is the trigger of no entry of `MACROS`, so the operation is not selected (R106). -/
  | notATrigger
  /-- Raised by KEYENC: a modifier bit with a zero address, not allowed by the configuration (R122, U4). -/
  | zeroAddressEncoding
  deriving DecidableEq, Repr

/-- The outcome of an operation. -/
abbrev Outcome := Host.Outcome State Fault Refusal

/-- The post-boot state `S0` (10_state.md R27) of a configuration. `ADDR` and `DATA` are unspecified there
(DESIGN CHOICE, log 3); the input pins belong to the environment (log 4). -/
def State.bootOf (c : Config) : State where
  cfg := c
  edgePhase := .falling
  bitCount := armedCount
  acc := 0x00#8
  ext := false
  ts := .idle
  symHeld := false
  digitApplied := false
  rsHeld := false
  rsPunctApplied := false
  lastCode := 0x00#8
  irqEn := true
  busy := false
  addr := 0x00#6
  data := .low
  strobe := c.strobeActive.inv
  resetLine := c.resetActive.inv
  ps2Clk := .high
  ps2Dat := .low
  sw := []
  inputs := []
  trace := []
  pinTrace := []

/-- The machine right after reset: `S0` (R27), in the configuration the spec writes out (DESIGN CHOICE, log 2). -/
def State.reset : State := State.bootOf Config.testcfg

/-! ### Setters: one register each -/

def State.setEdgePhase (s : State) (v : EdgePhase) : State := { s with edgePhase := v }
def State.setBitCount (s : State) (v : BitVec 4) : State := { s with bitCount := v }
def State.setAcc (s : State) (v : Byte) : State := { s with acc := v }
def State.setExt (s : State) (v : Bool) : State := { s with ext := v }
def State.setTs (s : State) (v : TransitionState) : State := { s with ts := v }
def State.setSymHeld (s : State) (v : Bool) : State := { s with symHeld := v }
def State.setDigitApplied (s : State) (v : Bool) : State := { s with digitApplied := v }
def State.setRsHeld (s : State) (v : Bool) : State := { s with rsHeld := v }
def State.setRsPunctApplied (s : State) (v : Bool) : State := { s with rsPunctApplied := v }
def State.setLastCode (s : State) (v : Byte) : State := { s with lastCode := v }
def State.setIrqEn (s : State) (v : Bool) : State := { s with irqEn := v }
def State.setBusy (s : State) (v : Bool) : State := { s with busy := v }
def State.setAddr (s : State) (v : Addr) : State := { s with addr := v }
def State.setData (s : State) (v : Level) : State := { s with data := v }
def State.setStrobe (s : State) (v : Level) : State := { s with strobe := v }
def State.setResetLine (s : State) (v : Level) : State := { s with resetLine := v }
def State.setPs2 (s : State) (clk dat : Level) : State := { s with ps2Clk := clk, ps2Dat := dat }
def State.setSw (s : State) (v : Memory) : State := { s with sw := v }
def State.setInputs (s : State) (v : List Input) : State := { s with inputs := v }
def State.emit (s : State) (x : TraceItem) : State := { s with trace := s.trace ++ [x] }
def State.emitPin (s : State) (x : PinItem) : State := { s with pinTrace := s.pinTrace ++ [x] }

end Sys2Proof.Machine
end

