-- ==== Sys2Proof/Machine/Memory.lean ====
section
/-! DEFINITION. The named operations on the switch space (20_memory.md R45, R49): read one point (for statements: the
block itself cannot read), write one point, clear all; the canonical form; and the fold of a trace (R152). -/

namespace Sys2Proof.Machine

/-- The byte at an address; an unlisted address reads as 0x00, an open point (log 16). -/
def Memory.read (m : Memory) (a : Nat) : Byte := (m.lookup a).getD 0x00#8

/-- Insert a cell before the first larger address. -/
def Memory.insertCell (x : Host.Cell) : Memory → Memory
  | [] => [x]
  | y :: m => if x.1 < y.1 then x :: y :: m else y :: Memory.insertCell x m

/-- Write a byte; writing 0x00 removes the entry. -/
def Memory.write (m : Memory) (a : Nat) (v : Byte) : Memory :=
  let rest := m.filter (fun y => y.1 != a)
  if v = 0x00#8 then rest else Memory.insertCell (a, v) rest

/-- `Sw[a]` (10_state.md R24): the point is closed. -/
def Memory.closedAt (m : Memory) (a : Addr) : Bool := m.read a.toNat != 0x00#8

/-- `Sw[a] <- c` (42_switch_driver.md R150). -/
def Memory.setPoint (m : Memory) (a : Addr) (c : Bool) : Memory :=
  m.write a.toNat (if c then 0x01#8 else 0x00#8)

/-- All points open (R151). -/
def Memory.allOpen : Memory := []

/-- The canonical form: addresses strictly rising, each one of the 64, each entry the closed value. -/
abbrev Memory.wf (m : Memory) : Prop :=
  m.Pairwise (fun x y => x.1 < y.1) ∧ ∀ x ∈ m, x.1 < 64 ∧ x.2 = 0x01#8

/-- `Apply(Sw, item)` (R152). -/
def applyItem (m : Memory) : TraceItem → Memory
  | .reset => Memory.allOpen
  | .set a c => m.setPoint a c
  | .delay _ => m

/-- `Sw` after a trace: the left fold (R152, 20_memory.md R51). -/
def applyTrace (m : Memory) (tr : List TraceItem) : Memory := tr.foldl applyItem m

end Sys2Proof.Machine
end

