-- ==== Sys2Proof/Machine/Ops.lean ====
section
/-! DEFINITION. The shared operations: pin writes with the switch array's reaction, delays, the driver's two
operations, the desync recovery (the block's one exception), and sequencing of outcomes. -/

namespace Sys2Proof.Machine

/-- Run the next operation on the state the first one leaves; a stop stays a stop. -/
def andThen (o : Outcome) (f : State → Outcome) : Outcome :=
  match o with
  | .next s => f s
  | .fault r => .fault r
  | .refused r => .refused r

/-- The state of an outcome that goes on. -/
def nextState : Outcome → Option State
  | .next s => some s
  | .fault _ => none
  | .refused _ => none

/-- The reason of a refusal. -/
def refusalOf : Outcome → Option Refusal
  | .next _ => none
  | .fault _ => none
  | .refused r => some r

/-- What selects an operation in this state (R68, R85). -/
def State.selector (s : State) : Selector where
  cfg := s.cfg
  edgePhase := s.edgePhase
  bitCount := s.bitCount
  ext := s.ext
  ts := s.ts

/-! ### Pins and the array's reaction -/

/-- The data level that commands a point (R143 step 4). -/
def dataLevel (c : Config) (closed : Bool) : Level := if closed then c.dataClosed else c.dataClosed.inv

/-- Write `ADDR` as one value (20_memory.md R48, D35). -/
def driveAddr (a : Addr) (s : State) : State := (s.setAddr a).emitPin (.addr a)

/-- Write `DATA`. -/
def driveData (l : Level) (s : State) : State := (s.setData l).emitPin (.data l)

/-- The array's point update at the de-assertion of `STROBE` (R150): `Sw[ADDR] <- (DATA == DATA_CLOSED)`. -/
def latchPoint (s : State) : State := s.setSw (s.sw.setPoint s.addr (s.data == s.cfg.dataClosed))

/-- Write `STROBE`; a change from the asserted level is the de-assertion at which the array latches (R150, log 8). -/
def driveStrobe (l : Level) (s : State) : State :=
  let t := if s.strobe = s.cfg.strobeActive ∧ l ≠ s.cfg.strobeActive then latchPoint s else s
  (t.setStrobe l).emitPin (.strobe l)

/-- Write `RESETLINE`; driving it to the asserted level opens every point (R151, log 8). -/
def driveResetLine (l : Level) (s : State) : State :=
  let t := if l = s.cfg.resetActive then s.setSw Memory.allOpen else s
  (t.setResetLine l).emitPin (.resetLine l)

/-- A driver delay: an item of the pin level only (R153). -/
def pinDelay (t : Duration) (s : State) : State := s.emitPin (.delay t)

/-- A delay of the Translator or the MacroPlayer: an item of both levels (R8, R153). -/
def delay (t : Duration) (s : State) : State := (s.emit (.delay t)).emitPin (.delay t)

/-! ### The driver (42_switch_driver.md R141, R143) -/

/-- `SwSet(a, closed)`: the six pin items of R143 in their order. -/
def swSet (a : Addr) (closed : Bool) (s : State) : State :=
  let s := s.emit (.set a closed)
  let s := driveAddr a s
  let s := pinDelay .tAddrSettle s
  let s := driveStrobe s.cfg.strobeActive s
  let s := driveData (dataLevel s.cfg closed) s
  let s := pinDelay .tHold s
  driveStrobe s.cfg.strobeActive.inv s

/-- `SwReset()`: the pulse of R141. -/
def swReset (s : State) : State :=
  let s := s.emit .reset
  let s := driveResetLine s.cfg.resetActive s
  let s := pinDelay .tResetPulse s
  driveResetLine s.cfg.resetActive.inv s

/-- The pin items that stand for a transaction-level item (R153). -/
def pinsOf (c : Config) : TraceItem → List PinItem
  | .reset => [.resetLine c.resetActive, .delay .tResetPulse, .resetLine c.resetActive.inv]
  | .set a closed =>
    [.addr a, .delay .tAddrSettle, .strobe c.strobeActive, .data (dataLevel c closed), .delay .tHold,
      .strobe c.strobeActive.inv]
  | .delay t => [.delay t]

/-! ### The exception (60_exceptions.md R172) -/

/-- The five translator registers the recovery clears (R172); `ts` is not one of them. -/
def clearLatches (s : State) : State :=
  ((((s.setExt false).setSymHeld false).setDigitApplied false).setRsHeld false).setRsPunctApplied false

/-- `raise ProtocolDesync(cause)`: the recovery procedure (R172). The cause is recorded nowhere, nothing is saved, no
mode or mask changes, and control comes back to the caller (R173): the return is the procedure's end. -/
def raiseDesync (_cause : Cause) (s : State) : State := swReset (clearLatches s)

end Sys2Proof.Machine
end

