-- ==== Sys2Proof/Machine/Flags.lean ====
section
/-! DEFINITION. The latch computations of the key path: the gates of the punctuation remap (41_translator.md R110)
and of the digit-row relocation (R113), and what each writes. The latches are the block's flags (10_state.md R17). -/

namespace Sys2Proof.Machine

/-- A remap is applied to this code: its delta is not 0 and right shift is held or the sticky latch is set (R110). -/
def punctGate (s : State) (code : Byte) : Bool :=
  punctDeltaAt s.cfg s.ext code != .none && (s.rsHeld || s.rsPunctApplied)

/-- `PunctRemap(code, rel)` (R110): a make sets the sticky latch, a break clears it, only when a remap is applied. -/
def punctRemap (code : Byte) (rel : Bool) (s : State) : Byte × State :=
  if punctGate s code then (add8 code (punctDeltaAt s.cfg s.ext code).value, s.setRsPunctApplied (!rel))
  else (code, s)

/-- `Lookup(code1)` (R111): read the table that `ext` selects, then clear `ext`. -/
def lookupKey (code1 : Byte) (s : State) : KeyCode × State := (keyTable s.cfg s.ext code1, s.setExt false)

/-- The gate of the relocation (R113): `symHeld` on a make, `digitApplied` on a break. -/
def digitGate (s : State) (rel : Bool) : Bool := if rel then s.digitApplied else s.symHeld

/-- Some encoding of the pair has a digit-row delta (R113). -/
def isRelocatable (c : Config) (kc : KeyCode) : Bool :=
  digitDeltaAt c kc.pri != .none || digitDeltaAt c kc.sec != .none

/-- `DigitRelocate(kc, rel)` (R113): both encodings move by their deltas, a delta of 0 leaving the byte as it is; a
make sets `digitApplied`, a break clears it, only when an encoding was moved. -/
def digitRelocate (kc : KeyCode) (rel : Bool) (s : State) : KeyCode × State :=
  if digitGate s rel && isRelocatable s.cfg kc then
    (⟨relocated s.cfg kc.pri, relocated s.cfg kc.sec⟩, s.setDigitApplied (!rel))
  else (kc, s)

/-- `Resolve(code, rel)` (R109): the three steps in order, each reading what the one before has written. -/
def resolve (code : Byte) (rel : Bool) (s : State) : KeyCode × State :=
  let r1 := punctRemap code rel s
  let r2 := lookupKey r1.1 r1.2
  digitRelocate r2.1 rel r2.2

/-- `symHeld` follows the encoding that is exactly `SYM_KEY_ENC` (R115, R116, R117). -/
def noteSymKey (enc : Byte) (held : Bool) (s : State) : State :=
  if enc = s.cfg.symKeyEnc then s.setSymHeld held else s

end Sys2Proof.Machine
end

