-- ==== Sys2Proof/Machine/SwitchDriver.lean ====
section
/-! DEFINITION. The switch driver's operations (42_switch_driver.md) and the work of one KeyEncoding on the switch
bus (41_translator.md R115, R117). -/

namespace Sys2Proof.Machine

/-- Perform an operation under a condition. -/
def onlyIf (b : Bool) (f : State → State) (s : State) : State := if b then f s else s

/-- `AssertOne(enc)` (R115): CAPS, then SYM with its latch, then the key's own point. -/
def assertOne (enc : Byte) (s : State) : State :=
  let s := onlyIf (needsCaps enc) (swSet s.cfg.capsAddr true) s
  let s := onlyIf (needsSym enc) (fun s => noteSymKey enc true (swSet s.cfg.symAddr true s)) s
  swSet (encAddr enc) true s

/-- `ReleaseOne(enc)` (R117): the same order, every write an opening. -/
def releaseOne (enc : Byte) (s : State) : State :=
  let s := onlyIf (needsCaps enc) (swSet s.cfg.capsAddr false) s
  let s := onlyIf (needsSym enc) (fun s => noteSymKey enc false (swSet s.cfg.symAddr false s)) s
  swSet (encAddr enc) false s

/-- `PostPrimary(p, s)` (R118): the settle delay, then open each modifier that the primary asserted and the secondary
does not need. -/
def postPrimary (p q : Byte) (s : State) : State :=
  let s := delay .tKeySettle s
  let s := onlyIf (needsCaps p && !needsCaps q) (swSet s.cfg.capsAddr false) s
  onlyIf (needsSym p && !needsSym q) (swSet s.cfg.symAddr false) s

/-- SW.SET (R142). -/
def execSwSet (a : Addr) (closed : Bool) (s : State) : Outcome := .next (swSet a closed s)

/-- SW.RESET (R141). -/
def execSwReset (s : State) : Outcome := .next (swReset s)

/-- KEYENC (30_encoding.md R62): the byte is worked on the switch bus as the key path works one encoding: the sentinel
0x00 is skipped (R112), otherwise it is asserted (R115), or released (R117) when a break is pending. DESIGN CHOICE
(log 9): the spec gives the format no operation of its own. -/
def execKeyEnc (enc : Byte) (s : State) : Outcome :=
  if isZeroAddrMod enc && !s.cfg.allowZeroAddrMod then .refused .zeroAddressEncoding
  else if enc = 0x00#8 then .next s
  else if s.ts = .released then .next (releaseOne enc s)
  else .next (assertOne enc s)

end Sys2Proof.Machine
end

