-- ==== Sys2Proof/Machine/Translator.lean ====
section
/-! DEFINITION. The scan-code translator's operations (41_translator.md) but for MACRO, which stands with the player
it starts (Machine/MacroPlayer.lean). Every operation's first act is `lastCode <- code` (R101). -/

namespace Sys2Proof.Machine

/-- PFX.E0 (R103). -/
def execPfxE0 (s : State) : Outcome := .next ((s.setLastCode 0xE0#8).setExt true)

/-- PFX.E0.DUP (R104). -/
def execPfxE0Dup (s : State) : Outcome := .next (raiseDesync .dupPrefix (s.setLastCode 0xE0#8))

/-- PFX.F0 (R105). -/
def execPfxF0 (s : State) : Outcome := .next ((s.setLastCode 0xF0#8).setTs .released)

/-- The common form of R107 and R108: the latch, the transition state, and `ext` under `RSHIFT_CLEARS_EXT`. -/
def rightShift (held : Bool) (ts : TransitionState) (s : State) : State :=
  onlyIf s.cfg.rshiftClearsExt (·.setExt false) ((s.setRsHeld held).setTs ts)

/-- RSHIFT.MAKE (R107). -/
def execRshiftMake (s : State) : Outcome := .next (rightShift true .pressed (s.setLastCode s.cfg.rshiftCode))

/-- RSHIFT.BREAK (R108). -/
def execRshiftBreak (s : State) : Outcome := .next (rightShift false .idle (s.setLastCode s.cfg.rshiftCode))

/-- The switch work of a make (R114): primary, then what stands between, then secondary; the sentinel is skipped
(R112). -/
def assertKey (kc : KeyCode) (s : State) : State :=
  let s := onlyIf (kc.pri != 0x00#8) (fun s =>
    onlyIf (kc.sec != 0x00#8) (postPrimary kc.pri kc.sec) (assertOne kc.pri s)) s
  onlyIf (kc.sec != 0x00#8) (assertOne kc.sec) s

/-- The switch work of a break (R117): secondary, then primary. -/
def releaseKey (kc : KeyCode) (s : State) : State :=
  let s := onlyIf (kc.sec != 0x00#8) (releaseOne kc.sec) s
  onlyIf (kc.pri != 0x00#8) (releaseOne kc.pri) s

/-- KEY.MAKE (R114). -/
def execKeyMake (code : Byte) (s : State) : Outcome :=
  let r := resolve code false (s.setLastCode code)
  .next ((assertKey r.1 r.2).setTs .pressed)

/-- KEY.BREAK (R117). -/
def execKeyBreak (code : Byte) (s : State) : Outcome :=
  let r := resolve code true (s.setLastCode code)
  .next ((releaseKey r.1 r.2).setTs .idle)

/-- BADCODE (R119). -/
def execBadCode (code : Byte) (s : State) : Outcome := .next (raiseDesync .badCode (s.setLastCode code))

/-- `Decode(code)` as a playback calls it (43_macro_player.md R162): the full dispatch of R100, but that a trigger
inside a sequence has no meaning (R164). -/
def decodeInPlay (code : Byte) (s : State) : Outcome :=
  match classify s.selector code with
  | .pfxE0 => execPfxE0 s
  | .pfxE0Dup => execPfxE0Dup s
  | .pfxF0 => execPfxF0 s
  | .trigger => .refused .recursivePlayback
  | .rshiftMake => execRshiftMake s
  | .rshiftBreak => execRshiftBreak s
  | .keyMake => execKeyMake code s
  | .keyBreak => execKeyBreak code s
  | .bad => execBadCode code s

end Sys2Proof.Machine
end

