-- ==== Sys2Proof/Machine/MacroPlayer.lean ====
section
/-! DEFINITION. The macro player (43_macro_player.md) and the Translator's entry `Decode` (41_translator.md R100),
which can start it. The opcode table's row MACRO.PLAY leaves the second press of an entry out; R162 and 90_conflicts
C5 have it, and the model follows them (log 19). -/

namespace Sys2Proof.Machine

/-- One entry of a playback (R162): press, dwell, break marker, release, second press, settle. -/
def playEntry (c : Byte) (s : State) : Outcome :=
  andThen (decodeInPlay c s) fun s =>
  andThen (decodeInPlay 0xF0#8 (delay .tMacroDwell s)) fun s =>
  andThen (decodeInPlay c s) fun s =>
  andThen (decodeInPlay c s) fun s =>
  .next (delay .tMacroSettle s)

/-- The loop of R161 over the entries before the sentinel. -/
def playEntries : List Byte → State → Outcome
  | [], s => .next s
  | c :: cs, s => andThen (playEntry c s) (playEntries cs)

/-- `Play(seq)` (R161): mask the interrupt, play, unmask whatever the mask was at entry (D29). -/
def play (seq : List Byte) (s : State) : Outcome :=
  if seqTerminated seq then
    andThen (playEntries (seqEntries seq) (s.setIrqEn false)) fun s => .next (s.setIrqEn true)
  else .refused .unterminatedSequence

/-- MACRO.PLAY (R161). -/
def execMacroPlay (seq : List Byte) (s : State) : Outcome := play seq s

/-- MACRO (R106): play the sequence bound to the trigger. -/
def execMacroTrigger (code : Byte) (s : State) : Outcome :=
  match macroFor s.cfg code with
  | some m => play m.seq (s.setLastCode code)
  | none => .refused .notATrigger

/-- `Decode(code)` (R100): one operation per call, chosen by `classify`. -/
def decodeCode (code : Byte) (s : State) : Outcome :=
  match classify s.selector code with
  | .pfxE0 => execPfxE0 s
  | .pfxE0Dup => execPfxE0Dup s
  | .pfxF0 => execPfxF0 s
  | .trigger => execMacroTrigger code s
  | .rshiftMake => execRshiftMake s
  | .rshiftBreak => execRshiftBreak s
  | .keyMake => execKeyMake code s
  | .keyBreak => execKeyBreak code s
  | .bad => execBadCode code s

end Sys2Proof.Machine
end

