-- ==== Sys2Proof/Machine/FrameDecoder.lean ====
section
/-! DEFINITION. The PS/2 frame decoder (40_frame_decoder.md): the three half-cell operations, the delivery of a clock
edge, and a whole frame. `busy` is true from the moment a decoder step begins until all it caused has finished
(10_state.md R20). -/

namespace Sys2Proof.Machine

/-- EDGE.F (R82): in a data cell shift the sample in; the phase turns to Rising. -/
def execEdgeF (d : Level) (s : State) : Outcome :=
  let s := s.setBusy true
  let s := onlyIf (inWindow s.bitCount) (fun s => s.setAcc (shiftIn s.acc d)) s
  .next ((s.setEdgePhase .rising).setBusy false)

/-- EDGE.R (R83): count the cell; the level is not used. -/
def execEdgeR (_d : Level) (s : State) : Outcome :=
  let s := s.setBusy true
  let s := s.setBitCount (s.bitCount - 1#4)
  .next ((s.setEdgePhase .falling).setBusy false)

/-- EDGE.R.DONE (R84): count the last cell, re-arm, hand the byte to the Translator, then clear the accumulator. -/
def execEdgeRDone (_d : Level) (s : State) : Outcome :=
  let s := s.setBusy true
  let s := s.setBitCount (s.bitCount - 1#4)
  let s := (s.setBitCount armedCount).setEdgePhase .falling
  andThen (decodeCode s.acc s) fun s => .next ((s.setAcc 0x00#8).setBusy false)

/-- `DecoderStep(d)` (R85); a position outside 1..11 has no meaning (U12). -/
def decoderStep (d : Level) (s : State) : Outcome :=
  match selectEdge s.selector with
  | some .f => execEdgeF d s
  | some .r => execEdgeR d s
  | some .rDone => execEdgeRDone d s
  | none => .refused (.undecodable .decoderPosition)

/-- The input pins after a transition (10_state.md R23). -/
def movePins (pol : Polarity) (d : Level) (s : State) : State := s.setPs2 pol.level d

/-- An event is delivered if and only if the source is enabled and no step is running (R80). -/
def deliverable (s : State) : Bool := s.irqEn && !s.busy

/-- One clock edge (R80): delivered to the decoder, or dropped and not remembered. The direction is not read (R81). -/
def deliverEdge (pol : Polarity) (d : Level) (s : State) : Outcome :=
  let s := movePins pol d s
  if deliverable s then decoderStep d s else .next s

/-- Each cell is a falling half and a rising half at the cell's level (R60, R70). -/
def deliverCells : List Level → State → Outcome
  | [], s => .next s
  | d :: ds, s => andThen (deliverEdge .fall d s) fun s => andThen (deliverEdge .rise d s) (deliverCells ds)

/-- FRAME (R70): its 22 clock edges, one after another (log 10). -/
def execFrame (cells : BitVec 11) (s : State) : Outcome := deliverCells (frameCells cells) s

end Sys2Proof.Machine
end

