-- ==== Sys2Proof/Machine/Procedures.lean ====
section
/-! DEFINITION. The two procedures of the opcode table: the desync recovery by itself (60_exceptions.md R172) and the
boot sequence (70_reset_and_hazards.md R192). -/

namespace Sys2Proof.Machine

/-- RECOVER (R172). -/
def execRecover (cause : Cause) (s : State) : Outcome := .next (raiseDesync cause s)

/-- The decoder registers as boot sets them (R192). -/
def bootDecoder (s : State) : State := ((s.setEdgePhase .falling).setBitCount armedCount).setAcc 0x00#8

/-- The translator registers as boot sets them (R192). -/
def bootTranslator (s : State) : State := ((clearLatches s).setTs .idle).setLastCode 0x00#8

/-- BOOT (R192): mask, idle pin levels, registers, all points open, unmask. `busy` is false after it (R27); `ADDR`,
`DATA` and the input pins are not written (log 18). -/
def execBoot (s : State) : Outcome :=
  let s := s.setIrqEn false
  let s := driveStrobe s.cfg.strobeActive.inv s
  let s := driveResetLine s.cfg.resetActive.inv s
  let s := bootTranslator (bootDecoder s)
  let s := swReset s
  .next ((s.setIrqEn true).setBusy false)

end Sys2Proof.Machine
end

