-- ==== Sys2Proof/Machine/Dispatch.lean ====
section
/-! DEFINITION. `exec`: one arm per constructor of `Instr`. -/

namespace Sys2Proof.Machine

def exec (i : Instr) (s : State) : Host.Outcome State Fault Refusal :=
  match i with
  -- formats
  | .frame cells => Sys2Proof.Machine.execFrame cells s
  | .keyEnc enc => Sys2Proof.Machine.execKeyEnc enc s
  -- frame decoder
  | .edgeF d => Sys2Proof.Machine.execEdgeF d s
  | .edgeR d => Sys2Proof.Machine.execEdgeR d s
  | .edgeRDone d => Sys2Proof.Machine.execEdgeRDone d s
  -- translator
  | .pfxE0 => Sys2Proof.Machine.execPfxE0 s
  | .pfxE0Dup => Sys2Proof.Machine.execPfxE0Dup s
  | .pfxF0 => Sys2Proof.Machine.execPfxF0 s
  | .macroTrigger code => Sys2Proof.Machine.execMacroTrigger code s
  | .rshiftMake => Sys2Proof.Machine.execRshiftMake s
  | .rshiftBreak => Sys2Proof.Machine.execRshiftBreak s
  | .keyMake code => Sys2Proof.Machine.execKeyMake code s
  | .keyBreak code => Sys2Proof.Machine.execKeyBreak code s
  | .badCode code => Sys2Proof.Machine.execBadCode code s
  -- switch driver
  | .swSet a closed => Sys2Proof.Machine.execSwSet a closed s
  | .swReset => Sys2Proof.Machine.execSwReset s
  -- macro player
  | .macroPlay seq => Sys2Proof.Machine.execMacroPlay seq s
  -- procedures
  | .recover cause => Sys2Proof.Machine.execRecover cause s
  | .boot => Sys2Proof.Machine.execBoot s

end Sys2Proof.Machine
end

