-- ==== Sys2Proof/Machine/Fetch.lean ====
section
/-! DEFINITION. What the next input item makes the machine do: nothing when there is none (60_exceptions.md R182), a
dropped clock edge (40_frame_decoder.md R80), an operation, or a refusal by name. -/

namespace Sys2Proof.Machine

/-- What a step does with the head of the queue. -/
inductive Fetched where
  /-- The queue is empty: the idle loop. -/
  | idle
  /-- A clock edge that is not delivered. -/
  | dropped
  /-- The operation the item selects. -/
  | run (i : Instr)
  /-- The item, or the configuration, has no meaning. -/
  | reject (r : Refusal)
  deriving DecidableEq, Repr

/-- The item leaves the queue; a clock edge sets the input pins, delivered or not (10_state.md R23). -/
def takeItem (x : Input) (rest : List Input) (s : State) : State :=
  let s := s.setInputs rest
  match x.port, x.bytes with
  | .edge pol, [b] => movePins pol (Level.ofBool (b.getLsbD 0)) s
  | _, _ => s

/-- The item is a clock edge that is dropped (R80): a well-formed sample that cannot be delivered. -/
def isDropped (x : Input) (s : State) : Bool :=
  match x.port, x.bytes with
  | .edge _, [b] => !hasStrayEdgeBits b && !deliverable s
  | _, _ => false

/-- The decoder's answer to the head of the queue, and the state with the item taken. An ill-formed configuration is
refused before anything runs (00_scope.md R5; log 13). -/
def fetch (s : State) : Fetched × State :=
  if !s.cfg.wf then (.reject .illFormedConfig, s)
  else match s.inputs with
    | [] => (.idle, s)
    | x :: rest =>
      if isDropped x s then (.dropped, takeItem x rest s)
      else match decode s.selector x with
        | .ok i => (.run i, takeItem x rest s)
        | .error e => (.reject (.undecodable e), s)

end Sys2Proof.Machine
end

