-- ==== Sys2Proof/Machine/Step.lean ====
section
/-! DEFINITION. One step: take the next input item and run the operation it selects (00_scope.md R6). -/

namespace Sys2Proof.Machine

/-- One step of the machine. -/
def step (s : State) : Host.Outcome State Fault Refusal :=
  match fetch s with
  | (.idle, t) => .next t
  | (.dropped, t) => .next t
  | (.run i, t) => exec i t
  | (.reject r, _) => .refused r

/-- The state with the item of a table word at the head of the queue, where the next step takes it (log 5). -/
def State.withFetchWord (s : State) (nbits w : Nat) : State := s.setInputs (tableInput nbits w :: s.inputs)

end Sys2Proof.Machine
end

