-- ==== Sys2Proof/Safety.lean ====
section
/-! DEFINITION. The terms the claims are stated in: the invariant of the states between steps, the position of the
decoder in its cycle, and the transaction-level view of what an operation does to the switch bus. -/

namespace Sys2Proof.Machine

/-- The decoder's place in the 22-state cycle of 10_state.md R14: 0 at (Falling, 11), 21 at (Rising, 1). -/
def cyclePosition (s : State) : Nat :=
  2 * (11 - s.bitCount.toNat) + (match s.edgePhase with | .falling => 0 | .rising => 1)

/-- What holds between steps: a decoder position in 1..11 (R12), no step running (R20), the strobe and the reset line
de-asserted (R27, 20_memory.md R51), and the switch space in canonical form. -/
structure Inv (s : State) : Prop where
  position : positionOk s.bitCount = true
  idle : s.busy = false
  strobeIdle : s.strobe = s.cfg.strobeActive.inv
  resetIdle : s.resetLine = s.cfg.resetActive.inv
  memory : s.sw.wf

/-- The state after one transaction-level item: the item on both traces, its effect on the array (R152) and the pin
levels it leaves (R141, R143: `ADDR` and `DATA` keep the transaction's values, the strobe and the reset line end
de-asserted). -/
def afterItem (s : State) (x : TraceItem) : State :=
  { s with
    trace := s.trace ++ [x]
    pinTrace := s.pinTrace ++ pinsOf s.cfg x
    sw := applyItem s.sw x
    addr := match x with | .set a _ => a | .reset => s.addr | .delay _ => s.addr
    data := match x with | .set _ c => dataLevel s.cfg c | .reset => s.data | .delay _ => s.data
    strobe := match x with | .set _ _ => s.cfg.strobeActive.inv | .reset => s.strobe | .delay _ => s.strobe
    resetLine := match x with | .reset => s.cfg.resetActive.inv | .set _ _ => s.resetLine | .delay _ => s.resetLine }

/-- The state after a list of items, in order (20_memory.md R51). -/
def afterItems (items : List TraceItem) (s : State) : State := items.foldl afterItem s

/-- The items of `AssertOne(enc)` (`closed = true`, R115) and of `ReleaseOne(enc)` (`closed = false`, R117). -/
def encItems (c : Config) (enc : Byte) (closed : Bool) : List TraceItem :=
  (if needsCaps enc then [.set c.capsAddr closed] else []) ++
  (if needsSym enc then [.set c.symAddr closed] else []) ++
  [.set (encAddr enc) closed]

/-- The items of `PostPrimary(p, q)` (R118). -/
def postItems (c : Config) (p q : Byte) : List TraceItem :=
  [.delay .tKeySettle] ++
  (if needsCaps p && !needsCaps q then [.set c.capsAddr false] else []) ++
  (if needsSym p && !needsSym q then [.set c.symAddr false] else [])

/-- The items of a make (R114): nothing for a sentinel (R112), the secondary after the primary (20_memory.md R42). -/
def makeItems (c : Config) (kc : KeyCode) : List TraceItem :=
  (if kc.pri = 0x00#8 then [] else encItems c kc.pri true) ++
  (if kc.pri = 0x00#8 ∨ kc.sec = 0x00#8 then [] else postItems c kc.pri kc.sec) ++
  (if kc.sec = 0x00#8 then [] else encItems c kc.sec true)

/-- The items of a break (R117): secondary, then primary (R42), no delay. -/
def breakItems (c : Config) (kc : KeyCode) : List TraceItem :=
  (if kc.sec = 0x00#8 then [] else encItems c kc.sec false) ++
  (if kc.pri = 0x00#8 then [] else encItems c kc.pri false)

/-- An encoding is exactly the dedicated SYM key, which is tested where SYM is required (R116, R117). -/
def isSymKey (c : Config) (enc : Byte) : Bool := needsSym enc && enc == c.symKeyEnc

/-- One of the two encodings is the dedicated SYM key. -/
def touchesSymKey (c : Config) (kc : KeyCode) : Bool := isSymKey c kc.pri || isSymKey c kc.sec

/-- The switch addresses a list of items drives. -/
def drives (items : List TraceItem) (a : Nat) : Prop := ∃ (b : Addr) (c : Bool), TraceItem.set b c ∈ items ∧ b.toNat = a

/-- The four modifier latches (10_state.md R17), in the order of the spec's table. -/
def latches (s : State) : Bool × Bool × Bool × Bool := (s.symHeld, s.digitApplied, s.rsHeld, s.rsPunctApplied)

/-- The three decoder registers (R11). -/
def decoderRegs (s : State) : EdgePhase × BitVec 4 × Byte := (s.edgePhase, s.bitCount, s.acc)

/-- The same state with other decoder registers and another `busy`: what `Decode` must not depend on (R84). -/
def withDecoder (s : State) (p : EdgePhase) (n : BitVec 4) (a : Byte) (b : Bool) : State :=
  { s with edgePhase := p, bitCount := n, acc := a, busy := b }

/-- A stop-preserving change of the next state. -/
def mapNext (f : State → State) : Outcome → Outcome
  | .next s => .next (f s)
  | .fault r => .fault r
  | .refused r => .refused r

end Sys2Proof.Machine
end

