-- ==== Sys2Proof/Certificates/Slice0/Obligations.lean ====
section
/-! DEFINITION. The statements for the provers. Each docstring names the rule of spec/ a statement formalises, or says
which choice of the model it rests on. `exec i s = .next t` with `t` written out says the result, the frame and that
the operation completes. -/

open Sys2Proof Sys2Proof.Machine

/-! ### Reset and boot -/

/-- The registers after reset, 10_state.md section 8: the values of the spec's table (its own decisions D7, D8, D25,
D29); `ADDR`, `DATA` and the input pins, which the table leaves open, are not stated. That `State.reset` has the
configuration TESTCFG is the model's choice (log 2). -/
def Obligations.ResetRegisterValues : Prop :=
  ∀ c : Config, let s := State.bootOf c
    s.edgePhase = .falling ∧ s.bitCount = 11#4 ∧ s.acc = 0x00#8 ∧ s.ext = false ∧ s.ts = .idle ∧
    s.symHeld = false ∧ s.digitApplied = false ∧ s.rsHeld = false ∧ s.rsPunctApplied = false ∧
    s.lastCode = 0x00#8 ∧ s.irqEn = true ∧ s.busy = false ∧
    s.strobe ≠ c.strobeActive ∧ s.resetLine ≠ c.resetActive ∧ (∀ a : Addr, s.sw.closedAt a = false) ∧
    (c = Config.testcfg → s = State.reset)

/-- The state after reset meets the invariant of the states between steps; the canonical form of the switch space is the
model's (log 16). -/
def Obligations.ResetMeetsInvariant : Prop := Inv State.reset

/-- BOOT ends in the post-boot state from any registers (70_reset_and_hazards.md, the boot sequence, D32): what boot
does not write (`ADDR`, `DATA`, the input pins, the queue) is kept, and the trace grows by one `Reset`; that `busy` is
false is log 18. -/
def Obligations.BootReachesPostBootState : Prop :=
  ∀ s : State, ∃ t : State, exec .boot s = .next t ∧
    t = { State.bootOf s.cfg with
          addr := s.addr, data := s.data, ps2Clk := s.ps2Clk, ps2Dat := s.ps2Dat, inputs := s.inputs,
          trace := s.trace ++ [.reset], pinTrace := t.pinTrace } ∧
    t.pinTrace = s.pinTrace ++
      [.strobe s.cfg.strobeActive.inv, .resetLine s.cfg.resetActive.inv, .resetLine s.cfg.resetActive,
        .delay .tResetPulse, .resetLine s.cfg.resetActive.inv]

/-! ### The step -/

/-- Every step keeps the invariant: the decoder position stays in 1..11 (10_state.md section 2), `busy` is false
between steps, the strobe and the reset line end de-asserted, and the switch space keeps its canonical form (the
model's data form, log 16). -/
def Obligations.StepKeepsInvariant : Prop :=
  ∀ s t : State, Inv s → step s = .next t → Inv t

/-- A step runs the decoded instruction: with a legal configuration, an item at the head of the queue that decodes to
`i`, and no dropped edge, `step` is `exec i` on the state with the item taken, whose queue is the rest and in which
only the two input pins may differ, which only an edge item moves. That input items stand in a queue is the model's
choice (log 5), and so is that an edge item sets `PS2_CLK` and `PS2_DAT` to its direction and its sample (log 4). -/
def Obligations.StepRunsDecodedInstruction : Prop :=
  ∀ (s : State) (x : Input) (rest : List Input) (i : Instr),
    s.cfg.wf = true → s.inputs = x :: rest → decode s.selector x = .ok i →
    ((∃ pol, x.port = .edge pol) → s.irqEn = true ∧ s.busy = false) →
    i.wf s.selector = true ∧
    step s = exec i (takeItem x rest s) ∧
    takeItem x rest s = { s with inputs := rest, ps2Clk := (takeItem x rest s).ps2Clk, ps2Dat := (takeItem x rest s).ps2Dat } ∧
    ((∀ pol, x.port ≠ .edge pol) → takeItem x rest s = { s with inputs := rest }) ∧
    (∀ pol b, x = ⟨.edge pol, [b]⟩ →
      takeItem x rest s = { s with inputs := rest, ps2Clk := pol.level, ps2Dat := Level.ofBool (b.getLsbD 0) })

/-- With nothing in the queue (log 5) the machine idles with all state retained (60_exceptions.md section 5); a
configuration that breaks a constraint is refused (00_scope.md section 4), by the step (log 13); an item that is no
input of its format (log 11) is refused by the decoder's reason, unless it is a clock edge to be dropped. -/
def Obligations.StepIdlesOrRefuses : Prop :=
  (∀ s : State, s.cfg.wf = true → s.inputs = [] → step s = .next s) ∧
  (∀ s : State, s.cfg.wf = false → step s = .refused .illFormedConfig) ∧
  (∀ (s : State) (x : Input) (rest : List Input) (e : DecodeError),
    s.cfg.wf = true → s.inputs = x :: rest → decode s.selector x = .error e → isDropped x s = false →
    step s = .refused (.undecodable e))

/-- "No crash path" (60_exceptions.md section 1): with a legal configuration, in every state that meets the invariant, a
step on an empty queue or on an item that decodes goes on to a next state. The queue of items is the model's (log 5). -/
def Obligations.StepAlwaysGoesOn : Prop :=
  ∀ s : State, s.cfg.wf = true → Inv s →
    (s.inputs = [] ∨ ∃ x rest i, s.inputs = x :: rest ∧ decode s.selector x = .ok i) →
    ∃ t, step s = .next t

/-- "No write by the block can change what a later table read returns" (R54): no step changes the configuration. -/
def Obligations.TablesAreImmutable : Prop :=
  (∀ s t : State, step s = .next t → t.cfg = s.cfg) ∧
  ∀ (i : Instr) (s t : State), exec i s = .next t → t.cfg = s.cfg

/-- The switch array is the left fold of the new transaction items (20_memory.md section 5, 42_switch_driver.md
section 3), for every step from every state. The trace is kept in State by the model's choice (log 7). -/
def Obligations.StepSwitchesAreFoldOfTrace : Prop :=
  ∀ s t : State, step s = .next t →
    ∃ new : List TraceItem, t.trace = s.trace ++ new ∧ t.sw = applyTrace s.sw new

/-- The pin level refines the transaction level (42_switch_driver.md section 3): the new pin items of a step are the
pin expansions of its new transaction items, but for BOOT, which also writes the idle levels. The traces are kept in
State by the model's choice (log 7). -/
def Obligations.PinTraceRefinesTransactionTrace : Prop :=
  ∀ s t : State, step s = .next t → (∀ x rest, s.inputs = x :: rest → x.port ≠ .boot) →
    ∃ new : List TraceItem, t.trace = s.trace ++ new ∧ t.pinTrace = s.pinTrace ++ new.flatMap (pinsOf s.cfg)

/-- The interrupt enable is set or kept by every operation, never left cleared (10_state.md section 4), and only BOOT
and a playback write it: MACRO.PLAY, MACRO, and what can start one (EDGE.R.DONE, FRAME). -/
def Obligations.InterruptEnableWriters : Prop :=
  ∀ (i : Instr) (s t : State), exec i s = .next t →
    (t.irqEn = s.irqEn ∨ t.irqEn = true) ∧
    ((∀ seq, i ≠ .macroPlay seq) → (∀ code, i ≠ .macroTrigger code) → i ≠ .boot → (∀ d, i ≠ .edgeRDone d) →
      (∀ cells, i ≠ .frame cells) → t.irqEn = s.irqEn) ∧
    (((∃ seq, i = .macroPlay seq) ∨ (∃ code, i = .macroTrigger code) ∨ i = .boot) → t.irqEn = true)

/-- "Nothing but boot ever sets the decoder registers other than the three operations above" (R89): every other
operation leaves them, the recovery among them. FRAME is 22 of those operations. -/
def Obligations.OnlyDecoderAndBootSetDecoderRegisters : Prop :=
  ∀ (i : Instr) (s t : State), exec i s = .next t →
    i ≠ .boot → (∀ d, i ≠ .edgeF d) → (∀ d, i ≠ .edgeR d) → (∀ d, i ≠ .edgeRDone d) → (∀ cells, i ≠ .frame cells) →
    decoderRegs t = decoderRegs s

/-! ### The frame decoder -/

/-- EDGE.F (40_frame_decoder.md section 2; the window is decision D4): in a data cell the accumulator shifts right, the
sample enters at bit 7 and the old bit 0 is lost; in the start, parity and stop cells it is unchanged; the phase turns
to Rising; nothing else changes but `busy`, false after a step. -/
def Obligations.EdgeFShiftsDataCells : Prop :=
  ∀ (d : Level) (s : State), ∃ a : Byte,
    exec (.edgeF d) s = .next { s with acc := a, edgePhase := .rising, busy := false } ∧
    (3#4 ≤ s.bitCount ∧ s.bitCount ≤ 10#4 →
      (a.getLsbD 7 = true ↔ d = .high) ∧ ∀ i, i < 7 → a.getLsbD i = s.acc.getLsbD (i + 1)) ∧
    (¬(3#4 ≤ s.bitCount ∧ s.bitCount ≤ 10#4) → a = s.acc)

/-- EDGE.R (R83): the count falls by one and the phase turns to Falling, whatever the level. Nothing else changes but
`busy`, false after a step. -/
def Obligations.EdgeRCountsTheCell : Prop :=
  ∀ (d : Level) (s : State), s.edgePhase = .rising → 2#4 ≤ s.bitCount →
    ∃ n : BitVec 4, n.toNat + 1 = s.bitCount.toNat ∧
      exec (.edgeR d) s = .next { s with bitCount := n, edgePhase := .falling, busy := false }

/-- EDGE.R.DONE (R84): the counter and the phase are re-armed, `Decode` runs on the accumulator, and then the
accumulator is cleared, whatever the level; it completes under every legal configuration. The re-armed registers are
those of the next state, and `busy` is true during `Decode` and false after it. -/
def Obligations.EdgeRDoneHandsTheByteOver : Prop :=
  ∀ (d : Level) (s : State), s.cfg.wf = true → s.edgePhase = .rising → s.bitCount = 1#4 →
    ∃ u : State,
      decodeCode s.acc { s with bitCount := 11#4, edgePhase := .falling, busy := true } = .next u ∧
      u.bitCount = 11#4 ∧ u.edgePhase = .falling ∧
      exec (.edgeRDone d) s = .next { u with acc := 0x00#8, busy := false }

/-- The position cycle (10_state.md section 2): a step that delivers a clock edge, an item of the queue (log 5), advances
the decoder by one place of its 22-state cycle. -/
def Obligations.DeliveredEdgeAdvancesPosition : Prop :=
  ∀ (s t : State) (pol : Polarity) (b : Byte) (rest : List Input),
    Inv s → s.irqEn = true → s.inputs = ⟨.edge pol, [b]⟩ :: rest → step s = .next t →
    cyclePosition t = (cyclePosition s + 1) % 22

/-- An edge that cannot be delivered is dropped and not remembered (40_frame_decoder.md section 1, D6): no state of the
block changes. That the item leaves the queue (log 5) and that the two input pins move to the edge's level and its
sample (log 4) is the model's choice. -/
def Obligations.UndeliverableEdgeIsDropped : Prop :=
  ∀ (s : State) (pol : Polarity) (d : Level) (rest : List Input),
    s.cfg.wf = true → s.irqEn = false ∨ s.busy = true → s.inputs = ⟨.edge pol, [edgeByte d]⟩ :: rest →
    step s = .next { s with inputs := rest, ps2Clk := pol.level, ps2Dat := d }

/-- The real direction of an edge is never read (40_frame_decoder.md section 1, D3): two states whose next item is an
edge with the same sample and different directions go on to states that differ in the level of `PS2_CLK` alone, which
the edge sets by the model's choice (log 4), or stop alike. -/
def Obligations.EdgeDirectionIsNeverRead : Prop :=
  ∀ (s : State) (pol pol' : Polarity) (b : Byte) (rest : List Input),
    mapNext (fun t => { t with ps2Clk := .low }) (step { s with inputs := ⟨.edge pol, [b]⟩ :: rest }) =
    mapNext (fun t => { t with ps2Clk := .low }) (step { s with inputs := ⟨.edge pol', [b]⟩ :: rest })

/-- A decoder position outside 1..11 has no meaning (40_frame_decoder.md section 2; 93_implementation_defined.md U12,
"refuse"): a delivered edge, an item of the queue (log 5), is refused by name. -/
def Obligations.UnreachablePositionIsRefused : Prop :=
  ∀ (s : State) (pol : Polarity) (d : Level) (rest : List Input),
    s.cfg.wf = true → s.irqEn = true → s.busy = false → (s.bitCount = 0#4 ∨ 11#4 < s.bitCount) →
    s.inputs = ⟨.edge pol, [edgeByte d]⟩ :: rest → step s = .refused (.undecodable .decoderPosition)

/-- A frame from the armed position has the effect of its byte given to `Decode` (40_frame_decoder.md section 3): for
every start, parity and stop level, every old accumulator, the byte handed over has data cell `i` in bit `i` (the
first data bit received becomes bit 0). It completes under every legal configuration. That the 22 edges run in one
operation (log 10) and leave the input pins at H and at the stop level (log 4) is the model's reading. Frames from
every other position are `FrameDeliversItsEdges`. -/
def Obligations.FrameActsAsItsByte : Prop :=
  ∀ (s : State) (cells : BitVec 11) (code : Byte),
    s.cfg.wf = true → s.irqEn = true → s.busy = false → s.edgePhase = .falling → s.bitCount = 11#4 →
    (∀ i, i < 8 → code.getLsbD i = cells.getLsbD (9 - i)) →
    ∃ u : State, decodeCode code s = .next u ∧
      exec (.frame cells) s =
        .next { u with acc := 0x00#8, ps2Clk := .high, ps2Dat := Level.ofBool (cells.getLsbD 0) }

/-- A frame in every position (40_frame_decoder.md sections 2 and 3, vectors V7 and V8): from every legal position it is
its 22 edges in order, two for each cell at the cell's level, each the EDGE operation of the position it meets, and it
ends in the place of the cycle it began in; it completes under every legal configuration. In a position outside 1..11
a deliverable frame is refused by name (93_implementation_defined.md U12). That the edges run in one operation (log 10)
and set the input pins to L or H by turns and to the cell's level (log 4) is the model's reading. -/
def Obligations.FrameDeliversItsEdges : Prop :=
  ∀ (s : State) (cells : BitVec 11), s.irqEn = true → s.busy = false →
    (s.cfg.wf = true → 1#4 ≤ s.bitCount → s.bitCount ≤ 11#4 → ∃ t : State,
      exec (.frame cells) s = .next t ∧
      (List.range 22).foldl (fun o k => andThen o (fun u =>
          let d := Level.ofBool (cells.getLsbD (10 - k / 2))
          exec (if u.edgePhase = .falling then .edgeF d else if 2#4 ≤ u.bitCount then .edgeR d else .edgeRDone d)
            { u with ps2Clk := if k % 2 = 0 then .low else .high, ps2Dat := d }))
        (.next s) = .next t ∧
      cyclePosition t = cyclePosition s) ∧
    (s.bitCount = 0#4 ∨ 11#4 < s.bitCount → exec (.frame cells) s = .refused (.undecodable .decoderPosition))

/-- A frame while the interrupt is masked or a step is running is lost: none of its edges is delivered and no state of
the block changes (40_frame_decoder.md section 1; V6). That its 22 edges run in one operation (log 10) and still move
the two input pins, which end at H and at the stop level (log 4), is the model's choice. -/
def Obligations.MaskedFrameIsLost : Prop :=
  ∀ (s : State) (cells : BitVec 11), s.irqEn = false ∨ s.busy = true →
    exec (.frame cells) s = .next { s with ps2Clk := .high, ps2Dat := Level.ofBool (cells.getLsbD 0) }

/-- "`Decode` reads none of the decoder's registers" (40_frame_decoder.md section 2), nor `busy`, and leaves them as
they are: running it after changing them is changing them after running it. -/
def Obligations.DecodeIgnoresDecoderRegisters : Prop :=
  ∀ (code : Byte) (s : State) (p : EdgePhase) (n : BitVec 4) (a : Byte) (b : Bool),
    decodeCode code (withDecoder s p n a b) = mapNext (fun t => withDecoder t p n a b) (decodeCode code s)

/-! ### Dispatch and prefixes -/

/-- `Decode(code)` (R100): exactly one operation, chosen by the first test that holds. -/
def Obligations.DecodeRunsFirstMatchingOperation : Prop :=
  ∀ (code : Byte) (s : State),
    decodeCode code s =
      if code = 0xE0#8 then (if s.ext = true then exec .pfxE0Dup s else exec .pfxE0 s)
      else if code = 0xF0#8 then exec .pfxF0 s
      else if ∃ m ∈ s.cfg.macros, m.trigger = code then exec (.macroTrigger code) s
      else if code = s.cfg.rshiftCode then (if s.ts = .released then exec .rshiftBreak s else exec .rshiftMake s)
      else if s.cfg.codeLo < code ∧ code < s.cfg.codeHi then
        (if s.ts = .released then exec (.keyBreak code) s else exec (.keyMake code) s)
      else exec (.badCode code) s

/-- Every `Decode` of a byte that starts no playback leaves the byte in `lastCode` (41_translator.md section 1, D8). -/
def Obligations.LastCodeHoldsTheDecodedByte : Prop :=
  ∀ (code : Byte) (s t : State), isTrigger s.cfg code = false → decodeCode code s = .next t → t.lastCode = code

/-- PFX.E0 (41_translator.md section 2): it sets `ext`; beside `lastCode` nothing else changes. -/
def Obligations.ExtendedPrefixSetsExt : Prop :=
  ∀ s : State, s.ext = false → exec .pfxE0 s = .next { s with ext := true, lastCode := 0xE0#8 }

/-- PFX.E0.DUP (41_translator.md section 2, D21): the recovery: `ext` and the four latches are cleared, all points are open, the trace grows by
`Reset`; `ts` and everything else is kept. -/
def Obligations.DuplicatePrefixRecovers : Prop :=
  ∀ s : State, s.ext = true → ∃ t : State, exec .pfxE0Dup s = .next t ∧
    t = { s with ext := false, symHeld := false, digitApplied := false, rsHeld := false, rsPunctApplied := false,
                 lastCode := 0xE0#8, resetLine := s.cfg.resetActive.inv, sw := t.sw, trace := s.trace ++ [.reset],
                 pinTrace := s.pinTrace ++ pinsOf s.cfg .reset } ∧
    ∀ a : Nat, t.sw.read a = 0x00#8

/-- Two consecutive 0xE0 bytes (the source's second property): exactly one `Reset`, no `Set`, `ext` clear. -/
def Obligations.TwoExtendedPrefixesResetOnce : Prop :=
  ∀ s : State, s.ext = false → ∃ t u : State, decodeCode 0xE0#8 s = .next t ∧ decodeCode 0xE0#8 t = .next u ∧
    u.trace = s.trace ++ [.reset] ∧ u.ext = false ∧ u.ts = s.ts ∧ ∀ a : Addr, u.sw.closedAt a = false

/-- PFX.F0 (41_translator.md section 2): it sets `ts` to Released; beside `lastCode` nothing else changes, `ext` among it. -/
def Obligations.BreakPrefixSetsReleased : Prop :=
  ∀ s : State, exec .pfxF0 s = .next { s with ts := .released, lastCode := 0xF0#8 }

/-- The two prefixes are accepted in either order (20_memory.md section 1): with `ext` clear, E0 F0 and F0 E0 leave the
same state but for `lastCode`, so the code that follows runs alike. -/
def Obligations.PrefixOrderDoesNotMatter : Prop :=
  ∀ (s : State) (c : Byte), s.ext = false →
    andThen (andThen (decodeCode 0xE0#8 s) (decodeCode 0xF0#8)) (decodeCode c) =
    andThen (andThen (decodeCode 0xF0#8 s) (decodeCode 0xE0#8)) (decodeCode c)

/-- RSHIFT.MAKE and RSHIFT.BREAK (41_translator.md section 4, D10): the latch and the transition state, `ext` only
under `RSHIFT_CLEARS_EXT`; no transaction, and the sticky latch is kept. -/
def Obligations.RightShiftUpdatesItsLatch : Prop :=
  ∀ s : State,
    (s.ts ≠ .released → exec .rshiftMake s =
      .next { s with rsHeld := true, ts := .pressed, lastCode := s.cfg.rshiftCode,
                     ext := if s.cfg.rshiftClearsExt = true then false else s.ext }) ∧
    (s.ts = .released → exec .rshiftBreak s =
      .next { s with rsHeld := false, ts := .idle, lastCode := s.cfg.rshiftCode,
                     ext := if s.cfg.rshiftClearsExt = true then false else s.ext })

/-- BADCODE (41_translator.md section 8, D21): the recovery, for every code; `ts` and everything else is kept. -/
def Obligations.BadCodeRecovers : Prop :=
  ∀ (code : Byte) (s : State), ∃ t : State, exec (.badCode code) s = .next t ∧
    t = { s with ext := false, symHeld := false, digitApplied := false, rsHeld := false, rsPunctApplied := false,
                 lastCode := code, resetLine := s.cfg.resetActive.inv, sw := t.sw, trace := s.trace ++ [.reset],
                 pinTrace := s.pinTrace ++ pinsOf s.cfg .reset } ∧
    ∀ a : Nat, t.sw.read a = 0x00#8

/-- The reserved bytes (30_encoding.md section 3): under a legal configuration 0x00 and every byte from 0xE1 up but
0xF0 is a bad code, unless it is a macro trigger or the designated right-shift code (log 20). -/
def Obligations.ReservedBytesAreBadCodes : Prop :=
  ∀ (code : Byte) (s : State), s.cfg.wf = true → (code = 0x00#8 ∨ 0xE1#8 ≤ code) → code ≠ 0xF0#8 →
    isTrigger s.cfg code = false → code ≠ s.cfg.rshiftCode → decodeCode code s = exec (.badCode code) s

/-- RECOVER (60_exceptions.md section 2, D21): the same for both causes; `ts`, `lastCode`, `irqEn`, the decoder and the
pins `ADDR`, `DATA`, `STROBE` are kept. -/
def Obligations.RecoveryOpensAllAndClearsLatches : Prop :=
  ∀ (cause : Cause) (s : State), ∃ t : State, exec (.recover cause) s = .next t ∧
    t = { s with ext := false, symHeld := false, digitApplied := false, rsHeld := false, rsPunctApplied := false,
                 resetLine := s.cfg.resetActive.inv, sw := t.sw, trace := s.trace ++ [.reset],
                 pinTrace := s.pinTrace ++ pinsOf s.cfg .reset } ∧
    ∀ a : Nat, t.sw.read a = 0x00#8

/-! ### Keys -/

/-- The front end of a key (41_translator.md section 5, D14, D15): punctuation remap of the code under `rsHeld` or the
sticky latch, lookup in the table `ext` selects, digit-row relocation under `symHeld` on a make and `digitApplied` on
a break; each latch is written only when its remap is applied, set by a make and cleared by a break; `ext` is cleared.
Nothing else changes. -/
def Obligations.ResolveRemapsLooksUpAndRelocates : Prop :=
  ∀ (code : Byte) (rel : Bool) (s : State),
    let d := (punctDeltaAt s.cfg s.ext code).value
    let punct := d ≠ 0 ∧ (s.rsHeld = true ∨ s.rsPunctApplied = true)
    ∀ code1 : Byte, (punct → (code1.toNat : Int) = ((code.toNat : Int) + d) % 256) → (¬punct → code1 = code) →
    let kc := if s.ext = true then tableAt s.cfg.ext code1 else tableAt s.cfg.plain code1
    let moved := (if rel = true then s.digitApplied = true else s.symHeld = true) ∧
      ((digitDeltaAt s.cfg kc.pri).value ≠ 0 ∨ (digitDeltaAt s.cfg kc.sec).value ≠ 0)
    ∃ (kc1 : KeyCode) (pl dl : Bool),
      resolve code rel s = (kc1, { s with ext := false, rsPunctApplied := pl, digitApplied := dl }) ∧
      (punct → pl = !rel) ∧ (¬punct → pl = s.rsPunctApplied) ∧
      (moved → dl = (!rel) ∧
        (kc1.pri.toNat : Int) = ((kc.pri.toNat : Int) + (digitDeltaAt s.cfg kc.pri).value) % 256 ∧
        (kc1.sec.toNat : Int) = ((kc.sec.toNat : Int) + (digitDeltaAt s.cfg kc.sec).value) % 256) ∧
      (¬moved → dl = s.digitApplied ∧ kc1 = kc)

/-- KEY.MAKE (41_translator.md section 6, D18, D19): the resolved pair is asserted primary then secondary with the
items of the rules, `symHeld` is set if one of the two is the dedicated SYM key, `ts` becomes Pressed. The rest is
kept, and every switch point the items do not drive reads as before. -/
def Obligations.KeyMakeAssertsTheResolvedPair : Prop :=
  ∀ (code : Byte) (s : State), s.ts ≠ .released →
    let r := resolve code false s
    let items := makeItems s.cfg r.1
    ∃ t : State, exec (.keyMake code) s = .next t ∧
      t = afterItems items { s with lastCode := code, ext := false, ts := .pressed,
                                    rsPunctApplied := r.2.rsPunctApplied, digitApplied := r.2.digitApplied,
                                    symHeld := s.symHeld || touchesSymKey s.cfg r.1 } ∧
      t.trace = s.trace ++ items ∧ TraceItem.reset ∉ items ∧
      ∀ a : Nat, ¬drives items a → t.sw.read a = s.sw.read a

/-- KEY.BREAK (41_translator.md section 7): the resolved pair is released secondary then primary, with no delay,
`symHeld` is cleared if one of the two is the dedicated SYM key, `ts` becomes Idle. The rest is kept, and every switch
point the items do not drive reads as before. -/
def Obligations.KeyBreakReleasesTheResolvedPair : Prop :=
  ∀ (code : Byte) (s : State), s.ts = .released →
    let r := resolve code true s
    let items := breakItems s.cfg r.1
    ∃ t : State, exec (.keyBreak code) s = .next t ∧
      t = afterItems items { s with lastCode := code, ext := false, ts := .idle,
                                    rsPunctApplied := r.2.rsPunctApplied, digitApplied := r.2.digitApplied,
                                    symHeld := s.symHeld && !touchesSymKey s.cfg r.1 } ∧
      t.trace = s.trace ++ items ∧ TraceItem.reset ∉ items ∧ (∀ d, TraceItem.delay d ∉ items) ∧
      ∀ a : Nat, ¬drives items a → t.sw.read a = s.sw.read a

/-- "On a make, primary then secondary; on a break, secondary then primary" (R42), for a compound key: the new items
of a make are those of the primary, then what stands between, in which only modifiers are opened, then those of the
secondary; those of a break are the secondary's and then the primary's. -/
def Obligations.EncodingOrderOnTheBus : Prop :=
  ∀ (code : Byte) (s t : State) (rel : Bool),
    let kc := (resolve code rel s).1
    kc.pri ≠ 0x00#8 → kc.sec ≠ 0x00#8 →
    exec (if rel = true then .keyBreak code else .keyMake code) s = .next t →
    (rel = false → ∃ mid : List TraceItem,
      t.trace = s.trace ++ encItems s.cfg kc.pri true ++ mid ++ encItems s.cfg kc.sec true ∧
      ∀ x ∈ mid, x = .delay .tKeySettle ∨ x = .set s.cfg.capsAddr false ∨ x = .set s.cfg.symAddr false) ∧
    (rel = true → t.trace = s.trace ++ encItems s.cfg kc.sec false ++ encItems s.cfg kc.pri false)

/-- Switch symmetry of a simple key (41_translator.md section 9): with a pair `(p, 0)` resolved alike, the break's
items are the make's with every closing turned into an opening, in the same order. -/
def Obligations.SimpleKeySwitchSymmetry : Prop :=
  ∀ (c : Byte) (s t s' t' : State) (p : Byte), p ≠ 0x00#8 → s'.cfg = s.cfg →
    (resolve c false s).1 = ⟨p, 0x00#8⟩ → (resolve c true s').1 = ⟨p, 0x00#8⟩ →
    exec (.keyMake c) s = .next t → exec (.keyBreak c) s' = .next t' →
    ∃ addrs : List Addr,
      addrs = (if needsCaps p then [s.cfg.capsAddr] else []) ++ (if needsSym p then [s.cfg.symAddr] else []) ++ [encAddr p] ∧
      t.trace = s.trace ++ addrs.map (fun a => .set a true) ∧
      t'.trace = s'.trace ++ addrs.map (fun a => .set a false)

/-- A simple unmodified key (the source's sixth property): its make closes exactly its point and its break opens it;
every other point is as it was. -/
def Obligations.SimpleKeyClosesAndOpensItsPoint : Prop :=
  ∀ (c : Byte) (s t : State) (p : Byte) (rel : Bool), p ≠ 0x00#8 → p < 0x40#8 →
    (resolve c rel s).1 = ⟨p, 0x00#8⟩ → exec (if rel = true then .keyBreak c else .keyMake c) s = .next t →
    t.trace = s.trace ++ [.set (encAddr p) (!rel)] ∧ t.sw.closedAt (encAddr p) = !rel ∧
    ∀ b : Addr, b ≠ encAddr p → t.sw.closedAt b = s.sw.closedAt b

/-- Press and release symmetry (41_translator.md section 9): a make of `c` followed by a break of `c`, with the same
prefix before it, returns the four latches to what they were, when the latch that `c` can set is clear before. -/
def Obligations.PressThenReleaseRestoresLatches : Prop :=
  ∀ (c : Byte) (s t u : State),
    (punctDeltaAt s.cfg s.ext c ≠ .none → s.rsPunctApplied = false) →
    (isRelocatable s.cfg (keyTable s.cfg s.ext
        (if punctGate s c = true then add8 c (punctDeltaAt s.cfg s.ext c).value else c)) = true →
      s.digitApplied = false) →
    (touchesSymKey s.cfg (resolve c false s).1 = true → s.symHeld = false) →
    exec (.keyMake c) s = .next t →
    exec (.keyBreak c) { t with ts := .released, ext := s.ext } = .next u →
    latches u = latches s

/-- The sticky latch and right shift (hazard (a) of 70_reset_and_hazards.md section 3): a remappable key made with
right shift up and broken with right shift down releases the pair bound to the remapped code, not the one its make
asserted, and leaves the sticky latch clear. -/
def Obligations.BreakUnderRightShiftReleasesRemappedKey : Prop :=
  ∀ (k : Byte) (s t u v : State),
    punctDeltaAt s.cfg s.ext k ≠ .none → s.rsHeld = false → s.rsPunctApplied = false → s.digitApplied = false →
    s.symHeld = false → s.ext = false →
    exec (.keyMake k) s = .next t → exec .rshiftMake t = .next u →
    exec (.keyBreak k) { u with ts := .released } = .next v →
    t.trace = s.trace ++ makeItems s.cfg (tableAt s.cfg.plain k) ∧
    v.trace = t.trace ++ breakItems s.cfg (tableAt s.cfg.plain (add8 k (punctDeltaAt s.cfg false k).value)) ∧
    v.rsPunctApplied = false

/-- KEYENC (log 9, the model's choice: the spec gives the format no operation of its own): the sentinel does nothing;
otherwise the encoding is asserted, or released when a break is pending, with the items of the key path; an encoding
with a modifier bit and a zero address is refused unless the configuration allows it. -/
def Obligations.KeyEncodingIsWorkedOnTheBus : Prop :=
  ∀ (enc : Byte) (s : State),
    let ok := (enc ≠ 0x40#8 ∧ enc ≠ 0x80#8 ∧ enc ≠ 0xC0#8) ∨ s.cfg.allowZeroAddrMod = true
    (¬ok → exec (.keyEnc enc) s = .refused .zeroAddressEncoding) ∧
    (enc = 0x00#8 → exec (.keyEnc enc) s = .next s) ∧
    (ok → enc ≠ 0x00#8 → s.ts ≠ .released → exec (.keyEnc enc) s =
      .next (afterItems (encItems s.cfg enc true)
        { s with symHeld := s.symHeld || isSymKey s.cfg enc })) ∧
    (ok → enc ≠ 0x00#8 → s.ts = .released → exec (.keyEnc enc) s =
      .next (afterItems (encItems s.cfg enc false)
        { s with symHeld := s.symHeld && !isSymKey s.cfg enc }))

/-! ### The switch driver and the switch space -/

/-- SW.SET at transaction level (42_switch_driver.md sections 2 and 3; that the array latches at the end of the strobe is
decision D24, log 8): `Sw[a]` is the commanded state, every other address of the switch space reads
as before, the trace grows by `Set(a, closed)`, and of the registers only the pins `ADDR`, `DATA`, `STROBE` change.
Every address is accepted. -/
def Obligations.SwitchSetWritesOnePoint : Prop :=
  ∀ (a : Addr) (closed : Bool) (s : State), ∃ t : State, exec (.swSet a closed) s = .next t ∧
    t = { s with addr := t.addr, data := t.data, strobe := t.strobe, sw := t.sw, trace := s.trace ++ [.set a closed],
                 pinTrace := t.pinTrace } ∧
    t.sw.closedAt a = closed ∧ ∀ b : Nat, b ≠ a.toNat → t.sw.read b = s.sw.read b

/-- The pin sequence of SW.SET, "in this order and no other" (R143), and the levels after it: `ADDR` and `DATA` keep
the transaction's values and the strobe is de-asserted. -/
def Obligations.SwitchSetPinSequence : Prop :=
  ∀ (a : Addr) (closed : Bool) (s : State), ∃ t : State, exec (.swSet a closed) s = .next t ∧
    t.pinTrace = s.pinTrace ++
      [.addr a, .delay .tAddrSettle, .strobe s.cfg.strobeActive,
        .data (if closed = true then s.cfg.dataClosed else s.cfg.dataClosed.inv), .delay .tHold,
        .strobe s.cfg.strobeActive.inv] ∧
    t.addr = a ∧ t.data = (if closed = true then s.cfg.dataClosed else s.cfg.dataClosed.inv) ∧
    t.strobe = s.cfg.strobeActive.inv ∧ t.resetLine = s.resetLine

/-- SW.RESET (42_switch_driver.md section 2, D23, D26): the pulse on `RESETLINE`, all points open, no other pin or
register touched. -/
def Obligations.SwitchResetOpensAllPoints : Prop :=
  ∀ s : State, ∃ t : State, exec .swReset s = .next t ∧
    t = { s with resetLine := s.cfg.resetActive.inv, sw := t.sw, trace := s.trace ++ [.reset],
                 pinTrace := s.pinTrace ++ [.resetLine s.cfg.resetActive, .delay .tResetPulse,
                                            .resetLine s.cfg.resetActive.inv] } ∧
    ∀ a : Nat, t.sw.read a = 0x00#8

/-- A switch write is idempotent on the array and not on the trace (20_memory.md section 3). -/
def Obligations.SwitchSetIsIdempotentOnTheArray : Prop :=
  ∀ (a : Addr) (closed : Bool) (s t u : State), exec (.swSet a closed) s = .next t → exec (.swSet a closed) t = .next u →
    u.sw = t.sw ∧ u.trace = s.trace ++ [.set a closed, .set a closed] ∧ u.pinTrace.length = s.pinTrace.length + 12

/-- Equal switch spaces are equal data: two memories in canonical form whose 64 points agree are the same list. This is
a fact of the model's own data form for `Sw[0..63]`, a sorted sparse list (log 16, DESIGN CHOICE); the spec gives 64
points and no such form. -/
def Obligations.CanonicalSwitchSpacesAreDetermined : Prop :=
  ∀ m m' : Memory, m.wf → m'.wf → (∀ a : Addr, m.closedAt a = m'.closedAt a) → m = m'

/-- The fold of a trace, point by point (42_switch_driver.md section 3): after the items, a point no later item touches
is in the state the last `Set` to it commands; after a `Reset` with no later `Set` to it a point is open; a point no
item touches is as before. -/
def Obligations.TraceFoldPointByPoint : Prop :=
  ∀ (m : Memory) (before after : List TraceItem) (a : Addr),
    TraceItem.reset ∉ after → (∀ c, TraceItem.set a c ∉ after) →
    (∀ c, (applyTrace m (before ++ [.set a c] ++ after)).closedAt a = c) ∧
    (applyTrace m (before ++ [.reset] ++ after)).closedAt a = false ∧
    (applyTrace m after).closedAt a = m.closedAt a

/-! ### The macro player -/

/-- MACRO.PLAY (43_macro_player.md section 2, D29): with a terminated sequence none of whose entries is a trigger,
the interrupt is masked, the entries before the first zero are played in order, each from the state the one before
left (the left fold of `playEntry`), and the interrupt is unmasked whatever it was; it completes under every legal
configuration. Bytes after the first zero are not read. The decoder registers, the configuration and the queue are
kept. -/
def Obligations.PlaybackPlaysEntriesMasked : Prop :=
  ∀ (entries junk : List Byte) (s : State), s.cfg.wf = true →
    (∀ e ∈ entries, e ≠ 0x00#8 ∧ isTrigger s.cfg e = false) →
    ∃ u : State,
      entries.foldl (fun o c => andThen o (playEntry c)) (.next { s with irqEn := false }) = .next u ∧ u.irqEn = false ∧
      exec (.macroPlay (entries ++ 0x00#8 :: junk)) s = .next { u with irqEn := true } ∧
      decoderRegs u = decoderRegs s ∧ u.busy = s.busy ∧ u.cfg = s.cfg ∧ u.inputs = s.inputs ∧
      u.ps2Clk = s.ps2Clk ∧ u.ps2Dat = s.ps2Dat

/-- One entry of a playback (43_macro_player.md section 2, D28): four `Decode` calls with the two delays between,
the second press among them. -/
def Obligations.PlaybackEntryIsFourDecodes : Prop :=
  ∀ (c : Byte) (s : State), s.cfg.wf = true → isTrigger s.cfg c = false →
    playEntry c s =
      andThen (andThen (andThen (andThen (andThen
        (decodeCode c s)
        (fun t => .next (afterItem t (.delay .tMacroDwell))))
        (decodeCode 0xF0#8))
        (decodeCode c))
        (decodeCode c))
        (fun t => .next (afterItem t (.delay .tMacroSettle)))

/-- The empty sequence (the source's third property): nothing but the interrupt left enabled. -/
def Obligations.EmptyPlaybackOnlyEnablesInterrupt : Prop :=
  ∀ s : State, exec (.macroPlay [0x00#8]) s = .next { s with irqEn := true }

/-- After a playback of at least one entry, all of them key codes, `ts` is Pressed, `ext` is clear and `lastCode` is
the last entry (90_conflicts.md C9; 41_translator.md section 1). -/
def Obligations.PlaybackEndsPressed : Prop :=
  ∀ (entries : List Byte) (last : Byte) (s t : State), s.cfg.wf = true →
    (∀ e ∈ entries ++ [last], e ≠ 0x00#8 ∧ isTrigger s.cfg e = false ∧ e ≠ s.cfg.rshiftCode ∧
      s.cfg.codeLo < e ∧ e < s.cfg.codeHi) →
    exec (.macroPlay (entries ++ [last, 0x00#8])) s = .next t →
    t.ts = .pressed ∧ t.ext = false ∧ t.lastCode = last ∧ t.irqEn = true

/-- A sequence that holds a trigger has no meaning (43_macro_player.md section 2, D27) and is refused; so is one with
no sentinel zero (log 14). -/
def Obligations.RecursiveOrUnterminatedPlaybackIsRefused : Prop :=
  ∀ (seq : List Byte) (s : State), s.cfg.wf = true →
    (0x00#8 ∉ seq → exec (.macroPlay seq) s = .refused .unterminatedSequence) ∧
    (0x00#8 ∈ seq → (∃ e ∈ seqEntries seq, isTrigger s.cfg e = true) →
      exec (.macroPlay seq) s = .refused .recursivePlayback)

/-- MACRO (41_translator.md section 3, D27): for the trigger of an entry, the bound sequence is played after
`lastCode` is written, whatever `ts` and `ext` are; it completes under every legal configuration. The last clause is the
model's choice (logs 12 and 14): the spec only says that a code that is no trigger does not select MACRO, and executed
on one by itself it is refused. -/
def Obligations.MacroPlaysItsBoundSequence : Prop :=
  ∀ (s : State),
    (∀ m ∈ s.cfg.macros, s.cfg.wf = true →
      exec (.macroTrigger m.trigger) s = exec (.macroPlay m.seq) { s with lastCode := m.trigger } ∧
      ∃ t, exec (.macroTrigger m.trigger) s = .next t) ∧
    ∀ code : Byte, isTrigger s.cfg code = false → exec (.macroTrigger code) s = .refused .notATrigger

/-! ### Encodings -/

/-- Decode and encode agree: for every operation well formed in a position, the decoder reads it back from its item,
with every operand at every value the encoding admits. The ports of the items are the model's (log 11). -/
def Obligations.DecodeOfEncodeIsIdentity : Prop :=
  ∀ (sel : Selector) (i : Instr), i.wf sel = true → decode sel (encode sel.cfg i) = .ok i

/-- What the decoder accepts is well formed, and its encoding is the item it was read from, but that an edge is given
the direction its operation expects (log 11). -/
def Obligations.EncodeOfDecodeIsTheItem : Prop :=
  ∀ (sel : Selector) (x : Input) (i : Instr), decode sel x = .ok i →
    i.wf sel = true ∧ (encode sel.cfg i).bytes = x.bytes ∧
    ((encode sel.cfg i).port = x.port ∨
      ∃ pol pol', x.port = .edge pol ∧ (encode sel.cfg i).port = .edge pol')

/-- Words of the spec's encodings in the position after reset, in the reset configuration (log 2), read as scan codes or
as a frame by their length (log 15; 30_encoding.md, opcode_table.json): the two fixed
prefixes, the right-shift code and a macro trigger of the reset configuration, a key, the reserved 0xE1, and the frame
of 0x1C as 95_test_vectors.md part 2 writes it out. -/
def Obligations.TableWordsDecode : Prop :=
  decodeTableWord 8 0xE0 = some .pfxE0 ∧ decodeTableWord 8 0xF0 = some .pfxF0 ∧
  decodeTableWord 8 0x59 = some .rshiftMake ∧ decodeTableWord 8 0x05 = some (.macroTrigger 0x05#8) ∧
  decodeTableWord 8 0x1C = some (.keyMake 0x1C#8) ∧ decodeTableWord 8 0xE1 = some (.badCode 0xE1#8) ∧
  decodeTableWord 16 0b00011100001 = some (.frame (frameOf 0x1C#8))
end

