-- ==== Sys2Proof/Laws/Memory.lean ====
section
/-! SUPPORT. The laws of the switch space: read after write, writes leave other addresses alone, every operation keeps
the canonical form, and the fold of a trace. -/

namespace Sys2Proof.Machine

@[simp] theorem Memory.read_nil (a : Nat) : Memory.read [] a = 0x00#8 := rfl

theorem Memory.read_cons (x : Host.Cell) (m : Memory) (a : Nat) :
    Memory.read (x :: m) a = if a = x.1 then x.2 else Memory.read m a := by
  unfold Memory.read
  by_cases h : a = x.1
  · subst h; simp [List.lookup]
  · simp [List.lookup, h, beq_eq_false_iff_ne.mpr h]

theorem Memory.read_filter_same (m : Memory) (a : Nat) : Memory.read (m.filter (fun y => y.1 != a)) a = 0x00#8 := by
  induction m with
  | nil => rfl
  | cons x m ih =>
    by_cases h : x.1 = a
    · simpa [h] using ih
    · simp [h, Memory.read_cons, Ne.symm h, ih]

theorem Memory.read_filter_other (m : Memory) {a b : Nat} (h : b ≠ a) :
    Memory.read (m.filter (fun y => y.1 != a)) b = Memory.read m b := by
  induction m with
  | nil => rfl
  | cons x m ih =>
    by_cases hx : x.1 = a
    · simp [hx, Memory.read_cons, h, ih]
    · simp [hx, Memory.read_cons, ih]

theorem Memory.read_insertCell_same (x : Host.Cell) (m : Memory) (h : ∀ y ∈ m, y.1 ≠ x.1) :
    Memory.read (Memory.insertCell x m) x.1 = x.2 := by
  induction m with
  | nil => simp [Memory.insertCell, Memory.read_cons]
  | cons y m ih =>
    unfold Memory.insertCell
    have hy : y.1 ≠ x.1 := h y (by simp)
    split
    · simp [Memory.read_cons]
    · rw [Memory.read_cons, if_neg (Ne.symm hy)]
      exact ih fun z hz => h z (by simp [hz])

theorem Memory.read_insertCell_other (x : Host.Cell) (m : Memory) {b : Nat} (h : b ≠ x.1) :
    Memory.read (Memory.insertCell x m) b = Memory.read m b := by
  induction m with
  | nil => simp [Memory.insertCell, Memory.read_cons, h]
  | cons y m ih =>
    unfold Memory.insertCell
    split
    · simp [Memory.read_cons, h]
    · simp [Memory.read_cons, ih]

theorem Memory.read_write_same (m : Memory) (a : Nat) (v : Byte) : (m.write a v).read a = v := by
  unfold Memory.write
  by_cases h : v = 0x00#8
  · simp only [h, if_true]; exact Memory.read_filter_same m a
  · simp only [h, if_false]
    exact Memory.read_insertCell_same (a, v) _ (by simp)

theorem Memory.read_write_other (m : Memory) {a b : Nat} (v : Byte) (h : b ≠ a) : (m.write a v).read b = m.read b := by
  unfold Memory.write
  by_cases hv : v = 0x00#8
  · simp only [hv, if_true]; exact Memory.read_filter_other m h
  · simp only [hv, if_false]
    rw [Memory.read_insertCell_other (a, v) _ h, Memory.read_filter_other m h]

@[simp] theorem Memory.closedAt_setPoint_same (m : Memory) (a : Addr) (c : Bool) : (m.setPoint a c).closedAt a = c := by
  unfold Memory.closedAt Memory.setPoint
  rw [Memory.read_write_same]
  cases c <;> decide

theorem Memory.read_setPoint_other (m : Memory) (a : Addr) (c : Bool) {b : Nat} (h : b ≠ a.toNat) :
    (m.setPoint a c).read b = m.read b :=
  Memory.read_write_other m _ h

theorem Memory.closedAt_setPoint_other (m : Memory) {a b : Addr} (c : Bool) (h : b ≠ a) :
    (m.setPoint a c).closedAt b = m.closedAt b := by
  unfold Memory.closedAt
  rw [Memory.read_setPoint_other m a c fun e => h (BitVec.eq_of_toNat_eq e)]

@[simp] theorem Memory.read_allOpen (a : Nat) : Memory.allOpen.read a = 0x00#8 := rfl

@[simp] theorem Memory.closedAt_allOpen (a : Addr) : Memory.allOpen.closedAt a = false := rfl

theorem Memory.mem_insertCell {x y : Host.Cell} {m : Memory} : y ∈ Memory.insertCell x m ↔ y = x ∨ y ∈ m := by
  induction m with
  | nil => simp [Memory.insertCell]
  | cons z m ih =>
    unfold Memory.insertCell
    split
    · simp
    · simp only [List.mem_cons, ih]
      constructor
      · rintro (h | h | h) <;> simp [h]
      · rintro (h | h | h) <;> simp [h]

theorem Memory.insertCell_rising (x : Host.Cell) (m : Memory) (hm : m.Pairwise fun a b => a.1 < b.1)
    (hx : ∀ y ∈ m, y.1 ≠ x.1) : (Memory.insertCell x m).Pairwise fun a b => a.1 < b.1 := by
  induction m with
  | nil => simp [Memory.insertCell]
  | cons y m ih =>
    obtain ⟨hy, hm⟩ := List.pairwise_cons.mp hm
    have hne : y.1 ≠ x.1 := hx y (by simp)
    unfold Memory.insertCell
    split
    · rename_i hlt
      refine List.pairwise_cons.mpr ⟨fun z hz => ?_, List.pairwise_cons.mpr ⟨hy, hm⟩⟩
      rcases List.mem_cons.mp hz with rfl | hz
      · exact hlt
      · exact Nat.lt_trans hlt (hy z hz)
    · rename_i hnlt
      refine List.pairwise_cons.mpr ⟨fun z hz => ?_, ih hm fun z hz => hx z (by simp [hz])⟩
      rcases Memory.mem_insertCell.mp hz with rfl | hz
      · omega
      · exact hy z hz

/-- A write of an open or a closed point keeps the canonical form. -/
theorem Memory.setPoint_wf {m : Memory} (h : m.wf) (a : Addr) (c : Bool) : (m.setPoint a c).wf := by
  obtain ⟨hp, hv⟩ := h
  have hf : (m.filter fun y => y.1 != a.toNat).Pairwise fun x y => x.1 < y.1 := hp.filter _
  have hfv : ∀ x ∈ m.filter fun y => y.1 != a.toNat, x.1 < 64 ∧ x.2 = 0x01#8 := fun x hx => hv x (List.mem_filter.mp hx).1
  unfold Memory.setPoint Memory.write
  cases c with
  | false => simpa using ⟨hf, hfv⟩
  | true =>
    simp only [if_true, show (0x01#8 = 0x00#8) = False by decide, if_false]
    refine ⟨Memory.insertCell_rising _ _ hf (by simp), fun x hx => ?_⟩
    rcases Memory.mem_insertCell.mp hx with rfl | hx
    · exact ⟨a.isLt, rfl⟩
    · exact hfv x hx

theorem Memory.allOpen_wf : Memory.allOpen.wf := ⟨List.Pairwise.nil, by simp [Memory.allOpen]⟩

theorem applyItem_wf {m : Memory} (h : m.wf) (x : TraceItem) : (applyItem m x).wf := by
  cases x with
  | reset => exact Memory.allOpen_wf
  | set a c => exact Memory.setPoint_wf h a c
  | delay t => exact h

/-- The fold of a trace keeps the canonical form. -/
theorem applyTrace_wf {m : Memory} (h : m.wf) (tr : List TraceItem) : (applyTrace m tr).wf := by
  induction tr generalizing m with
  | nil => exact h
  | cons x tr ih => exact ih (applyItem_wf h x)

@[simp] theorem applyTrace_nil (m : Memory) : applyTrace m [] = m := rfl

@[simp] theorem applyTrace_cons (m : Memory) (x : TraceItem) (tr : List TraceItem) :
    applyTrace m (x :: tr) = applyTrace (applyItem m x) tr := rfl

theorem applyTrace_append (m : Memory) (tr tr' : List TraceItem) :
    applyTrace m (tr ++ tr') = applyTrace (applyTrace m tr) tr' :=
  List.foldl_append

theorem Memory.filter_insertCell (x : Host.Cell) (m : Memory) :
    (Memory.insertCell x m).filter (fun y => y.1 != x.1) = m.filter (fun y => y.1 != x.1) := by
  induction m with
  | nil => simp [Memory.insertCell]
  | cons y m ih =>
    unfold Memory.insertCell
    split
    · simp
    · simp only [List.filter_cons, ih]

/-- Writing a point twice is writing it once (20_memory.md R46). -/
theorem Memory.setPoint_setPoint (m : Memory) (a : Addr) (c d : Bool) : (m.setPoint a c).setPoint a d = m.setPoint a d := by
  unfold Memory.setPoint Memory.write
  cases c <;> simp [Memory.filter_insertCell (a.toNat, 0x01#8)]

end Sys2Proof.Machine
end

