-- ==== Sys2Proof/Laws/State.lean ====
section
/-! SUPPORT. One lemma per field per setter of State, true by rfl, so that no later proof unfolds a record update. -/

namespace Sys2Proof.Machine

variable (s : State)

@[simp] theorem State.setEdgePhase_cfg (v : EdgePhase) : (s.setEdgePhase v).cfg = s.cfg := rfl
@[simp] theorem State.setEdgePhase_edgePhase (v : EdgePhase) : (s.setEdgePhase v).edgePhase = v := rfl
@[simp] theorem State.setEdgePhase_bitCount (v : EdgePhase) : (s.setEdgePhase v).bitCount = s.bitCount := rfl
@[simp] theorem State.setEdgePhase_acc (v : EdgePhase) : (s.setEdgePhase v).acc = s.acc := rfl
@[simp] theorem State.setEdgePhase_ext (v : EdgePhase) : (s.setEdgePhase v).ext = s.ext := rfl
@[simp] theorem State.setEdgePhase_ts (v : EdgePhase) : (s.setEdgePhase v).ts = s.ts := rfl
@[simp] theorem State.setEdgePhase_symHeld (v : EdgePhase) : (s.setEdgePhase v).symHeld = s.symHeld := rfl
@[simp] theorem State.setEdgePhase_digitApplied (v : EdgePhase) : (s.setEdgePhase v).digitApplied = s.digitApplied := rfl
@[simp] theorem State.setEdgePhase_rsHeld (v : EdgePhase) : (s.setEdgePhase v).rsHeld = s.rsHeld := rfl
@[simp] theorem State.setEdgePhase_rsPunctApplied (v : EdgePhase) : (s.setEdgePhase v).rsPunctApplied = s.rsPunctApplied := rfl
@[simp] theorem State.setEdgePhase_lastCode (v : EdgePhase) : (s.setEdgePhase v).lastCode = s.lastCode := rfl
@[simp] theorem State.setEdgePhase_irqEn (v : EdgePhase) : (s.setEdgePhase v).irqEn = s.irqEn := rfl
@[simp] theorem State.setEdgePhase_busy (v : EdgePhase) : (s.setEdgePhase v).busy = s.busy := rfl
@[simp] theorem State.setEdgePhase_addr (v : EdgePhase) : (s.setEdgePhase v).addr = s.addr := rfl
@[simp] theorem State.setEdgePhase_data (v : EdgePhase) : (s.setEdgePhase v).data = s.data := rfl
@[simp] theorem State.setEdgePhase_strobe (v : EdgePhase) : (s.setEdgePhase v).strobe = s.strobe := rfl
@[simp] theorem State.setEdgePhase_resetLine (v : EdgePhase) : (s.setEdgePhase v).resetLine = s.resetLine := rfl
@[simp] theorem State.setEdgePhase_ps2Clk (v : EdgePhase) : (s.setEdgePhase v).ps2Clk = s.ps2Clk := rfl
@[simp] theorem State.setEdgePhase_ps2Dat (v : EdgePhase) : (s.setEdgePhase v).ps2Dat = s.ps2Dat := rfl
@[simp] theorem State.setEdgePhase_sw (v : EdgePhase) : (s.setEdgePhase v).sw = s.sw := rfl
@[simp] theorem State.setEdgePhase_inputs (v : EdgePhase) : (s.setEdgePhase v).inputs = s.inputs := rfl
@[simp] theorem State.setEdgePhase_trace (v : EdgePhase) : (s.setEdgePhase v).trace = s.trace := rfl
@[simp] theorem State.setEdgePhase_pinTrace (v : EdgePhase) : (s.setEdgePhase v).pinTrace = s.pinTrace := rfl

@[simp] theorem State.setBitCount_cfg (v : BitVec 4) : (s.setBitCount v).cfg = s.cfg := rfl
@[simp] theorem State.setBitCount_edgePhase (v : BitVec 4) : (s.setBitCount v).edgePhase = s.edgePhase := rfl
@[simp] theorem State.setBitCount_bitCount (v : BitVec 4) : (s.setBitCount v).bitCount = v := rfl
@[simp] theorem State.setBitCount_acc (v : BitVec 4) : (s.setBitCount v).acc = s.acc := rfl
@[simp] theorem State.setBitCount_ext (v : BitVec 4) : (s.setBitCount v).ext = s.ext := rfl
@[simp] theorem State.setBitCount_ts (v : BitVec 4) : (s.setBitCount v).ts = s.ts := rfl
@[simp] theorem State.setBitCount_symHeld (v : BitVec 4) : (s.setBitCount v).symHeld = s.symHeld := rfl
@[simp] theorem State.setBitCount_digitApplied (v : BitVec 4) : (s.setBitCount v).digitApplied = s.digitApplied := rfl
@[simp] theorem State.setBitCount_rsHeld (v : BitVec 4) : (s.setBitCount v).rsHeld = s.rsHeld := rfl
@[simp] theorem State.setBitCount_rsPunctApplied (v : BitVec 4) : (s.setBitCount v).rsPunctApplied = s.rsPunctApplied := rfl
@[simp] theorem State.setBitCount_lastCode (v : BitVec 4) : (s.setBitCount v).lastCode = s.lastCode := rfl
@[simp] theorem State.setBitCount_irqEn (v : BitVec 4) : (s.setBitCount v).irqEn = s.irqEn := rfl
@[simp] theorem State.setBitCount_busy (v : BitVec 4) : (s.setBitCount v).busy = s.busy := rfl
@[simp] theorem State.setBitCount_addr (v : BitVec 4) : (s.setBitCount v).addr = s.addr := rfl
@[simp] theorem State.setBitCount_data (v : BitVec 4) : (s.setBitCount v).data = s.data := rfl
@[simp] theorem State.setBitCount_strobe (v : BitVec 4) : (s.setBitCount v).strobe = s.strobe := rfl
@[simp] theorem State.setBitCount_resetLine (v : BitVec 4) : (s.setBitCount v).resetLine = s.resetLine := rfl
@[simp] theorem State.setBitCount_ps2Clk (v : BitVec 4) : (s.setBitCount v).ps2Clk = s.ps2Clk := rfl
@[simp] theorem State.setBitCount_ps2Dat (v : BitVec 4) : (s.setBitCount v).ps2Dat = s.ps2Dat := rfl
@[simp] theorem State.setBitCount_sw (v : BitVec 4) : (s.setBitCount v).sw = s.sw := rfl
@[simp] theorem State.setBitCount_inputs (v : BitVec 4) : (s.setBitCount v).inputs = s.inputs := rfl
@[simp] theorem State.setBitCount_trace (v : BitVec 4) : (s.setBitCount v).trace = s.trace := rfl
@[simp] theorem State.setBitCount_pinTrace (v : BitVec 4) : (s.setBitCount v).pinTrace = s.pinTrace := rfl

@[simp] theorem State.setAcc_cfg (v : Byte) : (s.setAcc v).cfg = s.cfg := rfl
@[simp] theorem State.setAcc_edgePhase (v : Byte) : (s.setAcc v).edgePhase = s.edgePhase := rfl
@[simp] theorem State.setAcc_bitCount (v : Byte) : (s.setAcc v).bitCount = s.bitCount := rfl
@[simp] theorem State.setAcc_acc (v : Byte) : (s.setAcc v).acc = v := rfl
@[simp] theorem State.setAcc_ext (v : Byte) : (s.setAcc v).ext = s.ext := rfl
@[simp] theorem State.setAcc_ts (v : Byte) : (s.setAcc v).ts = s.ts := rfl
@[simp] theorem State.setAcc_symHeld (v : Byte) : (s.setAcc v).symHeld = s.symHeld := rfl
@[simp] theorem State.setAcc_digitApplied (v : Byte) : (s.setAcc v).digitApplied = s.digitApplied := rfl
@[simp] theorem State.setAcc_rsHeld (v : Byte) : (s.setAcc v).rsHeld = s.rsHeld := rfl
@[simp] theorem State.setAcc_rsPunctApplied (v : Byte) : (s.setAcc v).rsPunctApplied = s.rsPunctApplied := rfl
@[simp] theorem State.setAcc_lastCode (v : Byte) : (s.setAcc v).lastCode = s.lastCode := rfl
@[simp] theorem State.setAcc_irqEn (v : Byte) : (s.setAcc v).irqEn = s.irqEn := rfl
@[simp] theorem State.setAcc_busy (v : Byte) : (s.setAcc v).busy = s.busy := rfl
@[simp] theorem State.setAcc_addr (v : Byte) : (s.setAcc v).addr = s.addr := rfl
@[simp] theorem State.setAcc_data (v : Byte) : (s.setAcc v).data = s.data := rfl
@[simp] theorem State.setAcc_strobe (v : Byte) : (s.setAcc v).strobe = s.strobe := rfl
@[simp] theorem State.setAcc_resetLine (v : Byte) : (s.setAcc v).resetLine = s.resetLine := rfl
@[simp] theorem State.setAcc_ps2Clk (v : Byte) : (s.setAcc v).ps2Clk = s.ps2Clk := rfl
@[simp] theorem State.setAcc_ps2Dat (v : Byte) : (s.setAcc v).ps2Dat = s.ps2Dat := rfl
@[simp] theorem State.setAcc_sw (v : Byte) : (s.setAcc v).sw = s.sw := rfl
@[simp] theorem State.setAcc_inputs (v : Byte) : (s.setAcc v).inputs = s.inputs := rfl
@[simp] theorem State.setAcc_trace (v : Byte) : (s.setAcc v).trace = s.trace := rfl
@[simp] theorem State.setAcc_pinTrace (v : Byte) : (s.setAcc v).pinTrace = s.pinTrace := rfl

@[simp] theorem State.setExt_cfg (v : Bool) : (s.setExt v).cfg = s.cfg := rfl
@[simp] theorem State.setExt_edgePhase (v : Bool) : (s.setExt v).edgePhase = s.edgePhase := rfl
@[simp] theorem State.setExt_bitCount (v : Bool) : (s.setExt v).bitCount = s.bitCount := rfl
@[simp] theorem State.setExt_acc (v : Bool) : (s.setExt v).acc = s.acc := rfl
@[simp] theorem State.setExt_ext (v : Bool) : (s.setExt v).ext = v := rfl
@[simp] theorem State.setExt_ts (v : Bool) : (s.setExt v).ts = s.ts := rfl
@[simp] theorem State.setExt_symHeld (v : Bool) : (s.setExt v).symHeld = s.symHeld := rfl
@[simp] theorem State.setExt_digitApplied (v : Bool) : (s.setExt v).digitApplied = s.digitApplied := rfl
@[simp] theorem State.setExt_rsHeld (v : Bool) : (s.setExt v).rsHeld = s.rsHeld := rfl
@[simp] theorem State.setExt_rsPunctApplied (v : Bool) : (s.setExt v).rsPunctApplied = s.rsPunctApplied := rfl
@[simp] theorem State.setExt_lastCode (v : Bool) : (s.setExt v).lastCode = s.lastCode := rfl
@[simp] theorem State.setExt_irqEn (v : Bool) : (s.setExt v).irqEn = s.irqEn := rfl
@[simp] theorem State.setExt_busy (v : Bool) : (s.setExt v).busy = s.busy := rfl
@[simp] theorem State.setExt_addr (v : Bool) : (s.setExt v).addr = s.addr := rfl
@[simp] theorem State.setExt_data (v : Bool) : (s.setExt v).data = s.data := rfl
@[simp] theorem State.setExt_strobe (v : Bool) : (s.setExt v).strobe = s.strobe := rfl
@[simp] theorem State.setExt_resetLine (v : Bool) : (s.setExt v).resetLine = s.resetLine := rfl
@[simp] theorem State.setExt_ps2Clk (v : Bool) : (s.setExt v).ps2Clk = s.ps2Clk := rfl
@[simp] theorem State.setExt_ps2Dat (v : Bool) : (s.setExt v).ps2Dat = s.ps2Dat := rfl
@[simp] theorem State.setExt_sw (v : Bool) : (s.setExt v).sw = s.sw := rfl
@[simp] theorem State.setExt_inputs (v : Bool) : (s.setExt v).inputs = s.inputs := rfl
@[simp] theorem State.setExt_trace (v : Bool) : (s.setExt v).trace = s.trace := rfl
@[simp] theorem State.setExt_pinTrace (v : Bool) : (s.setExt v).pinTrace = s.pinTrace := rfl

@[simp] theorem State.setTs_cfg (v : TransitionState) : (s.setTs v).cfg = s.cfg := rfl
@[simp] theorem State.setTs_edgePhase (v : TransitionState) : (s.setTs v).edgePhase = s.edgePhase := rfl
@[simp] theorem State.setTs_bitCount (v : TransitionState) : (s.setTs v).bitCount = s.bitCount := rfl
@[simp] theorem State.setTs_acc (v : TransitionState) : (s.setTs v).acc = s.acc := rfl
@[simp] theorem State.setTs_ext (v : TransitionState) : (s.setTs v).ext = s.ext := rfl
@[simp] theorem State.setTs_ts (v : TransitionState) : (s.setTs v).ts = v := rfl
@[simp] theorem State.setTs_symHeld (v : TransitionState) : (s.setTs v).symHeld = s.symHeld := rfl
@[simp] theorem State.setTs_digitApplied (v : TransitionState) : (s.setTs v).digitApplied = s.digitApplied := rfl
@[simp] theorem State.setTs_rsHeld (v : TransitionState) : (s.setTs v).rsHeld = s.rsHeld := rfl
@[simp] theorem State.setTs_rsPunctApplied (v : TransitionState) : (s.setTs v).rsPunctApplied = s.rsPunctApplied := rfl
@[simp] theorem State.setTs_lastCode (v : TransitionState) : (s.setTs v).lastCode = s.lastCode := rfl
@[simp] theorem State.setTs_irqEn (v : TransitionState) : (s.setTs v).irqEn = s.irqEn := rfl
@[simp] theorem State.setTs_busy (v : TransitionState) : (s.setTs v).busy = s.busy := rfl
@[simp] theorem State.setTs_addr (v : TransitionState) : (s.setTs v).addr = s.addr := rfl
@[simp] theorem State.setTs_data (v : TransitionState) : (s.setTs v).data = s.data := rfl
@[simp] theorem State.setTs_strobe (v : TransitionState) : (s.setTs v).strobe = s.strobe := rfl
@[simp] theorem State.setTs_resetLine (v : TransitionState) : (s.setTs v).resetLine = s.resetLine := rfl
@[simp] theorem State.setTs_ps2Clk (v : TransitionState) : (s.setTs v).ps2Clk = s.ps2Clk := rfl
@[simp] theorem State.setTs_ps2Dat (v : TransitionState) : (s.setTs v).ps2Dat = s.ps2Dat := rfl
@[simp] theorem State.setTs_sw (v : TransitionState) : (s.setTs v).sw = s.sw := rfl
@[simp] theorem State.setTs_inputs (v : TransitionState) : (s.setTs v).inputs = s.inputs := rfl
@[simp] theorem State.setTs_trace (v : TransitionState) : (s.setTs v).trace = s.trace := rfl
@[simp] theorem State.setTs_pinTrace (v : TransitionState) : (s.setTs v).pinTrace = s.pinTrace := rfl

@[simp] theorem State.setSymHeld_cfg (v : Bool) : (s.setSymHeld v).cfg = s.cfg := rfl
@[simp] theorem State.setSymHeld_edgePhase (v : Bool) : (s.setSymHeld v).edgePhase = s.edgePhase := rfl
@[simp] theorem State.setSymHeld_bitCount (v : Bool) : (s.setSymHeld v).bitCount = s.bitCount := rfl
@[simp] theorem State.setSymHeld_acc (v : Bool) : (s.setSymHeld v).acc = s.acc := rfl
@[simp] theorem State.setSymHeld_ext (v : Bool) : (s.setSymHeld v).ext = s.ext := rfl
@[simp] theorem State.setSymHeld_ts (v : Bool) : (s.setSymHeld v).ts = s.ts := rfl
@[simp] theorem State.setSymHeld_symHeld (v : Bool) : (s.setSymHeld v).symHeld = v := rfl
@[simp] theorem State.setSymHeld_digitApplied (v : Bool) : (s.setSymHeld v).digitApplied = s.digitApplied := rfl
@[simp] theorem State.setSymHeld_rsHeld (v : Bool) : (s.setSymHeld v).rsHeld = s.rsHeld := rfl
@[simp] theorem State.setSymHeld_rsPunctApplied (v : Bool) : (s.setSymHeld v).rsPunctApplied = s.rsPunctApplied := rfl
@[simp] theorem State.setSymHeld_lastCode (v : Bool) : (s.setSymHeld v).lastCode = s.lastCode := rfl
@[simp] theorem State.setSymHeld_irqEn (v : Bool) : (s.setSymHeld v).irqEn = s.irqEn := rfl
@[simp] theorem State.setSymHeld_busy (v : Bool) : (s.setSymHeld v).busy = s.busy := rfl
@[simp] theorem State.setSymHeld_addr (v : Bool) : (s.setSymHeld v).addr = s.addr := rfl
@[simp] theorem State.setSymHeld_data (v : Bool) : (s.setSymHeld v).data = s.data := rfl
@[simp] theorem State.setSymHeld_strobe (v : Bool) : (s.setSymHeld v).strobe = s.strobe := rfl
@[simp] theorem State.setSymHeld_resetLine (v : Bool) : (s.setSymHeld v).resetLine = s.resetLine := rfl
@[simp] theorem State.setSymHeld_ps2Clk (v : Bool) : (s.setSymHeld v).ps2Clk = s.ps2Clk := rfl
@[simp] theorem State.setSymHeld_ps2Dat (v : Bool) : (s.setSymHeld v).ps2Dat = s.ps2Dat := rfl
@[simp] theorem State.setSymHeld_sw (v : Bool) : (s.setSymHeld v).sw = s.sw := rfl
@[simp] theorem State.setSymHeld_inputs (v : Bool) : (s.setSymHeld v).inputs = s.inputs := rfl
@[simp] theorem State.setSymHeld_trace (v : Bool) : (s.setSymHeld v).trace = s.trace := rfl
@[simp] theorem State.setSymHeld_pinTrace (v : Bool) : (s.setSymHeld v).pinTrace = s.pinTrace := rfl

@[simp] theorem State.setDigitApplied_cfg (v : Bool) : (s.setDigitApplied v).cfg = s.cfg := rfl
@[simp] theorem State.setDigitApplied_edgePhase (v : Bool) : (s.setDigitApplied v).edgePhase = s.edgePhase := rfl
@[simp] theorem State.setDigitApplied_bitCount (v : Bool) : (s.setDigitApplied v).bitCount = s.bitCount := rfl
@[simp] theorem State.setDigitApplied_acc (v : Bool) : (s.setDigitApplied v).acc = s.acc := rfl
@[simp] theorem State.setDigitApplied_ext (v : Bool) : (s.setDigitApplied v).ext = s.ext := rfl
@[simp] theorem State.setDigitApplied_ts (v : Bool) : (s.setDigitApplied v).ts = s.ts := rfl
@[simp] theorem State.setDigitApplied_symHeld (v : Bool) : (s.setDigitApplied v).symHeld = s.symHeld := rfl
@[simp] theorem State.setDigitApplied_digitApplied (v : Bool) : (s.setDigitApplied v).digitApplied = v := rfl
@[simp] theorem State.setDigitApplied_rsHeld (v : Bool) : (s.setDigitApplied v).rsHeld = s.rsHeld := rfl
@[simp] theorem State.setDigitApplied_rsPunctApplied (v : Bool) : (s.setDigitApplied v).rsPunctApplied = s.rsPunctApplied := rfl
@[simp] theorem State.setDigitApplied_lastCode (v : Bool) : (s.setDigitApplied v).lastCode = s.lastCode := rfl
@[simp] theorem State.setDigitApplied_irqEn (v : Bool) : (s.setDigitApplied v).irqEn = s.irqEn := rfl
@[simp] theorem State.setDigitApplied_busy (v : Bool) : (s.setDigitApplied v).busy = s.busy := rfl
@[simp] theorem State.setDigitApplied_addr (v : Bool) : (s.setDigitApplied v).addr = s.addr := rfl
@[simp] theorem State.setDigitApplied_data (v : Bool) : (s.setDigitApplied v).data = s.data := rfl
@[simp] theorem State.setDigitApplied_strobe (v : Bool) : (s.setDigitApplied v).strobe = s.strobe := rfl
@[simp] theorem State.setDigitApplied_resetLine (v : Bool) : (s.setDigitApplied v).resetLine = s.resetLine := rfl
@[simp] theorem State.setDigitApplied_ps2Clk (v : Bool) : (s.setDigitApplied v).ps2Clk = s.ps2Clk := rfl
@[simp] theorem State.setDigitApplied_ps2Dat (v : Bool) : (s.setDigitApplied v).ps2Dat = s.ps2Dat := rfl
@[simp] theorem State.setDigitApplied_sw (v : Bool) : (s.setDigitApplied v).sw = s.sw := rfl
@[simp] theorem State.setDigitApplied_inputs (v : Bool) : (s.setDigitApplied v).inputs = s.inputs := rfl
@[simp] theorem State.setDigitApplied_trace (v : Bool) : (s.setDigitApplied v).trace = s.trace := rfl
@[simp] theorem State.setDigitApplied_pinTrace (v : Bool) : (s.setDigitApplied v).pinTrace = s.pinTrace := rfl

@[simp] theorem State.setRsHeld_cfg (v : Bool) : (s.setRsHeld v).cfg = s.cfg := rfl
@[simp] theorem State.setRsHeld_edgePhase (v : Bool) : (s.setRsHeld v).edgePhase = s.edgePhase := rfl
@[simp] theorem State.setRsHeld_bitCount (v : Bool) : (s.setRsHeld v).bitCount = s.bitCount := rfl
@[simp] theorem State.setRsHeld_acc (v : Bool) : (s.setRsHeld v).acc = s.acc := rfl
@[simp] theorem State.setRsHeld_ext (v : Bool) : (s.setRsHeld v).ext = s.ext := rfl
@[simp] theorem State.setRsHeld_ts (v : Bool) : (s.setRsHeld v).ts = s.ts := rfl
@[simp] theorem State.setRsHeld_symHeld (v : Bool) : (s.setRsHeld v).symHeld = s.symHeld := rfl
@[simp] theorem State.setRsHeld_digitApplied (v : Bool) : (s.setRsHeld v).digitApplied = s.digitApplied := rfl
@[simp] theorem State.setRsHeld_rsHeld (v : Bool) : (s.setRsHeld v).rsHeld = v := rfl
@[simp] theorem State.setRsHeld_rsPunctApplied (v : Bool) : (s.setRsHeld v).rsPunctApplied = s.rsPunctApplied := rfl
@[simp] theorem State.setRsHeld_lastCode (v : Bool) : (s.setRsHeld v).lastCode = s.lastCode := rfl
@[simp] theorem State.setRsHeld_irqEn (v : Bool) : (s.setRsHeld v).irqEn = s.irqEn := rfl
@[simp] theorem State.setRsHeld_busy (v : Bool) : (s.setRsHeld v).busy = s.busy := rfl
@[simp] theorem State.setRsHeld_addr (v : Bool) : (s.setRsHeld v).addr = s.addr := rfl
@[simp] theorem State.setRsHeld_data (v : Bool) : (s.setRsHeld v).data = s.data := rfl
@[simp] theorem State.setRsHeld_strobe (v : Bool) : (s.setRsHeld v).strobe = s.strobe := rfl
@[simp] theorem State.setRsHeld_resetLine (v : Bool) : (s.setRsHeld v).resetLine = s.resetLine := rfl
@[simp] theorem State.setRsHeld_ps2Clk (v : Bool) : (s.setRsHeld v).ps2Clk = s.ps2Clk := rfl
@[simp] theorem State.setRsHeld_ps2Dat (v : Bool) : (s.setRsHeld v).ps2Dat = s.ps2Dat := rfl
@[simp] theorem State.setRsHeld_sw (v : Bool) : (s.setRsHeld v).sw = s.sw := rfl
@[simp] theorem State.setRsHeld_inputs (v : Bool) : (s.setRsHeld v).inputs = s.inputs := rfl
@[simp] theorem State.setRsHeld_trace (v : Bool) : (s.setRsHeld v).trace = s.trace := rfl
@[simp] theorem State.setRsHeld_pinTrace (v : Bool) : (s.setRsHeld v).pinTrace = s.pinTrace := rfl

@[simp] theorem State.setRsPunctApplied_cfg (v : Bool) : (s.setRsPunctApplied v).cfg = s.cfg := rfl
@[simp] theorem State.setRsPunctApplied_edgePhase (v : Bool) : (s.setRsPunctApplied v).edgePhase = s.edgePhase := rfl
@[simp] theorem State.setRsPunctApplied_bitCount (v : Bool) : (s.setRsPunctApplied v).bitCount = s.bitCount := rfl
@[simp] theorem State.setRsPunctApplied_acc (v : Bool) : (s.setRsPunctApplied v).acc = s.acc := rfl
@[simp] theorem State.setRsPunctApplied_ext (v : Bool) : (s.setRsPunctApplied v).ext = s.ext := rfl
@[simp] theorem State.setRsPunctApplied_ts (v : Bool) : (s.setRsPunctApplied v).ts = s.ts := rfl
@[simp] theorem State.setRsPunctApplied_symHeld (v : Bool) : (s.setRsPunctApplied v).symHeld = s.symHeld := rfl
@[simp] theorem State.setRsPunctApplied_digitApplied (v : Bool) : (s.setRsPunctApplied v).digitApplied = s.digitApplied := rfl
@[simp] theorem State.setRsPunctApplied_rsHeld (v : Bool) : (s.setRsPunctApplied v).rsHeld = s.rsHeld := rfl
@[simp] theorem State.setRsPunctApplied_rsPunctApplied (v : Bool) : (s.setRsPunctApplied v).rsPunctApplied = v := rfl
@[simp] theorem State.setRsPunctApplied_lastCode (v : Bool) : (s.setRsPunctApplied v).lastCode = s.lastCode := rfl
@[simp] theorem State.setRsPunctApplied_irqEn (v : Bool) : (s.setRsPunctApplied v).irqEn = s.irqEn := rfl
@[simp] theorem State.setRsPunctApplied_busy (v : Bool) : (s.setRsPunctApplied v).busy = s.busy := rfl
@[simp] theorem State.setRsPunctApplied_addr (v : Bool) : (s.setRsPunctApplied v).addr = s.addr := rfl
@[simp] theorem State.setRsPunctApplied_data (v : Bool) : (s.setRsPunctApplied v).data = s.data := rfl
@[simp] theorem State.setRsPunctApplied_strobe (v : Bool) : (s.setRsPunctApplied v).strobe = s.strobe := rfl
@[simp] theorem State.setRsPunctApplied_resetLine (v : Bool) : (s.setRsPunctApplied v).resetLine = s.resetLine := rfl
@[simp] theorem State.setRsPunctApplied_ps2Clk (v : Bool) : (s.setRsPunctApplied v).ps2Clk = s.ps2Clk := rfl
@[simp] theorem State.setRsPunctApplied_ps2Dat (v : Bool) : (s.setRsPunctApplied v).ps2Dat = s.ps2Dat := rfl
@[simp] theorem State.setRsPunctApplied_sw (v : Bool) : (s.setRsPunctApplied v).sw = s.sw := rfl
@[simp] theorem State.setRsPunctApplied_inputs (v : Bool) : (s.setRsPunctApplied v).inputs = s.inputs := rfl
@[simp] theorem State.setRsPunctApplied_trace (v : Bool) : (s.setRsPunctApplied v).trace = s.trace := rfl
@[simp] theorem State.setRsPunctApplied_pinTrace (v : Bool) : (s.setRsPunctApplied v).pinTrace = s.pinTrace := rfl

@[simp] theorem State.setLastCode_cfg (v : Byte) : (s.setLastCode v).cfg = s.cfg := rfl
@[simp] theorem State.setLastCode_edgePhase (v : Byte) : (s.setLastCode v).edgePhase = s.edgePhase := rfl
@[simp] theorem State.setLastCode_bitCount (v : Byte) : (s.setLastCode v).bitCount = s.bitCount := rfl
@[simp] theorem State.setLastCode_acc (v : Byte) : (s.setLastCode v).acc = s.acc := rfl
@[simp] theorem State.setLastCode_ext (v : Byte) : (s.setLastCode v).ext = s.ext := rfl
@[simp] theorem State.setLastCode_ts (v : Byte) : (s.setLastCode v).ts = s.ts := rfl
@[simp] theorem State.setLastCode_symHeld (v : Byte) : (s.setLastCode v).symHeld = s.symHeld := rfl
@[simp] theorem State.setLastCode_digitApplied (v : Byte) : (s.setLastCode v).digitApplied = s.digitApplied := rfl
@[simp] theorem State.setLastCode_rsHeld (v : Byte) : (s.setLastCode v).rsHeld = s.rsHeld := rfl
@[simp] theorem State.setLastCode_rsPunctApplied (v : Byte) : (s.setLastCode v).rsPunctApplied = s.rsPunctApplied := rfl
@[simp] theorem State.setLastCode_lastCode (v : Byte) : (s.setLastCode v).lastCode = v := rfl
@[simp] theorem State.setLastCode_irqEn (v : Byte) : (s.setLastCode v).irqEn = s.irqEn := rfl
@[simp] theorem State.setLastCode_busy (v : Byte) : (s.setLastCode v).busy = s.busy := rfl
@[simp] theorem State.setLastCode_addr (v : Byte) : (s.setLastCode v).addr = s.addr := rfl
@[simp] theorem State.setLastCode_data (v : Byte) : (s.setLastCode v).data = s.data := rfl
@[simp] theorem State.setLastCode_strobe (v : Byte) : (s.setLastCode v).strobe = s.strobe := rfl
@[simp] theorem State.setLastCode_resetLine (v : Byte) : (s.setLastCode v).resetLine = s.resetLine := rfl
@[simp] theorem State.setLastCode_ps2Clk (v : Byte) : (s.setLastCode v).ps2Clk = s.ps2Clk := rfl
@[simp] theorem State.setLastCode_ps2Dat (v : Byte) : (s.setLastCode v).ps2Dat = s.ps2Dat := rfl
@[simp] theorem State.setLastCode_sw (v : Byte) : (s.setLastCode v).sw = s.sw := rfl
@[simp] theorem State.setLastCode_inputs (v : Byte) : (s.setLastCode v).inputs = s.inputs := rfl
@[simp] theorem State.setLastCode_trace (v : Byte) : (s.setLastCode v).trace = s.trace := rfl
@[simp] theorem State.setLastCode_pinTrace (v : Byte) : (s.setLastCode v).pinTrace = s.pinTrace := rfl

@[simp] theorem State.setIrqEn_cfg (v : Bool) : (s.setIrqEn v).cfg = s.cfg := rfl
@[simp] theorem State.setIrqEn_edgePhase (v : Bool) : (s.setIrqEn v).edgePhase = s.edgePhase := rfl
@[simp] theorem State.setIrqEn_bitCount (v : Bool) : (s.setIrqEn v).bitCount = s.bitCount := rfl
@[simp] theorem State.setIrqEn_acc (v : Bool) : (s.setIrqEn v).acc = s.acc := rfl
@[simp] theorem State.setIrqEn_ext (v : Bool) : (s.setIrqEn v).ext = s.ext := rfl
@[simp] theorem State.setIrqEn_ts (v : Bool) : (s.setIrqEn v).ts = s.ts := rfl
@[simp] theorem State.setIrqEn_symHeld (v : Bool) : (s.setIrqEn v).symHeld = s.symHeld := rfl
@[simp] theorem State.setIrqEn_digitApplied (v : Bool) : (s.setIrqEn v).digitApplied = s.digitApplied := rfl
@[simp] theorem State.setIrqEn_rsHeld (v : Bool) : (s.setIrqEn v).rsHeld = s.rsHeld := rfl
@[simp] theorem State.setIrqEn_rsPunctApplied (v : Bool) : (s.setIrqEn v).rsPunctApplied = s.rsPunctApplied := rfl
@[simp] theorem State.setIrqEn_lastCode (v : Bool) : (s.setIrqEn v).lastCode = s.lastCode := rfl
@[simp] theorem State.setIrqEn_irqEn (v : Bool) : (s.setIrqEn v).irqEn = v := rfl
@[simp] theorem State.setIrqEn_busy (v : Bool) : (s.setIrqEn v).busy = s.busy := rfl
@[simp] theorem State.setIrqEn_addr (v : Bool) : (s.setIrqEn v).addr = s.addr := rfl
@[simp] theorem State.setIrqEn_data (v : Bool) : (s.setIrqEn v).data = s.data := rfl
@[simp] theorem State.setIrqEn_strobe (v : Bool) : (s.setIrqEn v).strobe = s.strobe := rfl
@[simp] theorem State.setIrqEn_resetLine (v : Bool) : (s.setIrqEn v).resetLine = s.resetLine := rfl
@[simp] theorem State.setIrqEn_ps2Clk (v : Bool) : (s.setIrqEn v).ps2Clk = s.ps2Clk := rfl
@[simp] theorem State.setIrqEn_ps2Dat (v : Bool) : (s.setIrqEn v).ps2Dat = s.ps2Dat := rfl
@[simp] theorem State.setIrqEn_sw (v : Bool) : (s.setIrqEn v).sw = s.sw := rfl
@[simp] theorem State.setIrqEn_inputs (v : Bool) : (s.setIrqEn v).inputs = s.inputs := rfl
@[simp] theorem State.setIrqEn_trace (v : Bool) : (s.setIrqEn v).trace = s.trace := rfl
@[simp] theorem State.setIrqEn_pinTrace (v : Bool) : (s.setIrqEn v).pinTrace = s.pinTrace := rfl

@[simp] theorem State.setBusy_cfg (v : Bool) : (s.setBusy v).cfg = s.cfg := rfl
@[simp] theorem State.setBusy_edgePhase (v : Bool) : (s.setBusy v).edgePhase = s.edgePhase := rfl
@[simp] theorem State.setBusy_bitCount (v : Bool) : (s.setBusy v).bitCount = s.bitCount := rfl
@[simp] theorem State.setBusy_acc (v : Bool) : (s.setBusy v).acc = s.acc := rfl
@[simp] theorem State.setBusy_ext (v : Bool) : (s.setBusy v).ext = s.ext := rfl
@[simp] theorem State.setBusy_ts (v : Bool) : (s.setBusy v).ts = s.ts := rfl
@[simp] theorem State.setBusy_symHeld (v : Bool) : (s.setBusy v).symHeld = s.symHeld := rfl
@[simp] theorem State.setBusy_digitApplied (v : Bool) : (s.setBusy v).digitApplied = s.digitApplied := rfl
@[simp] theorem State.setBusy_rsHeld (v : Bool) : (s.setBusy v).rsHeld = s.rsHeld := rfl
@[simp] theorem State.setBusy_rsPunctApplied (v : Bool) : (s.setBusy v).rsPunctApplied = s.rsPunctApplied := rfl
@[simp] theorem State.setBusy_lastCode (v : Bool) : (s.setBusy v).lastCode = s.lastCode := rfl
@[simp] theorem State.setBusy_irqEn (v : Bool) : (s.setBusy v).irqEn = s.irqEn := rfl
@[simp] theorem State.setBusy_busy (v : Bool) : (s.setBusy v).busy = v := rfl
@[simp] theorem State.setBusy_addr (v : Bool) : (s.setBusy v).addr = s.addr := rfl
@[simp] theorem State.setBusy_data (v : Bool) : (s.setBusy v).data = s.data := rfl
@[simp] theorem State.setBusy_strobe (v : Bool) : (s.setBusy v).strobe = s.strobe := rfl
@[simp] theorem State.setBusy_resetLine (v : Bool) : (s.setBusy v).resetLine = s.resetLine := rfl
@[simp] theorem State.setBusy_ps2Clk (v : Bool) : (s.setBusy v).ps2Clk = s.ps2Clk := rfl
@[simp] theorem State.setBusy_ps2Dat (v : Bool) : (s.setBusy v).ps2Dat = s.ps2Dat := rfl
@[simp] theorem State.setBusy_sw (v : Bool) : (s.setBusy v).sw = s.sw := rfl
@[simp] theorem State.setBusy_inputs (v : Bool) : (s.setBusy v).inputs = s.inputs := rfl
@[simp] theorem State.setBusy_trace (v : Bool) : (s.setBusy v).trace = s.trace := rfl
@[simp] theorem State.setBusy_pinTrace (v : Bool) : (s.setBusy v).pinTrace = s.pinTrace := rfl

@[simp] theorem State.setAddr_cfg (v : Addr) : (s.setAddr v).cfg = s.cfg := rfl
@[simp] theorem State.setAddr_edgePhase (v : Addr) : (s.setAddr v).edgePhase = s.edgePhase := rfl
@[simp] theorem State.setAddr_bitCount (v : Addr) : (s.setAddr v).bitCount = s.bitCount := rfl
@[simp] theorem State.setAddr_acc (v : Addr) : (s.setAddr v).acc = s.acc := rfl
@[simp] theorem State.setAddr_ext (v : Addr) : (s.setAddr v).ext = s.ext := rfl
@[simp] theorem State.setAddr_ts (v : Addr) : (s.setAddr v).ts = s.ts := rfl
@[simp] theorem State.setAddr_symHeld (v : Addr) : (s.setAddr v).symHeld = s.symHeld := rfl
@[simp] theorem State.setAddr_digitApplied (v : Addr) : (s.setAddr v).digitApplied = s.digitApplied := rfl
@[simp] theorem State.setAddr_rsHeld (v : Addr) : (s.setAddr v).rsHeld = s.rsHeld := rfl
@[simp] theorem State.setAddr_rsPunctApplied (v : Addr) : (s.setAddr v).rsPunctApplied = s.rsPunctApplied := rfl
@[simp] theorem State.setAddr_lastCode (v : Addr) : (s.setAddr v).lastCode = s.lastCode := rfl
@[simp] theorem State.setAddr_irqEn (v : Addr) : (s.setAddr v).irqEn = s.irqEn := rfl
@[simp] theorem State.setAddr_busy (v : Addr) : (s.setAddr v).busy = s.busy := rfl
@[simp] theorem State.setAddr_addr (v : Addr) : (s.setAddr v).addr = v := rfl
@[simp] theorem State.setAddr_data (v : Addr) : (s.setAddr v).data = s.data := rfl
@[simp] theorem State.setAddr_strobe (v : Addr) : (s.setAddr v).strobe = s.strobe := rfl
@[simp] theorem State.setAddr_resetLine (v : Addr) : (s.setAddr v).resetLine = s.resetLine := rfl
@[simp] theorem State.setAddr_ps2Clk (v : Addr) : (s.setAddr v).ps2Clk = s.ps2Clk := rfl
@[simp] theorem State.setAddr_ps2Dat (v : Addr) : (s.setAddr v).ps2Dat = s.ps2Dat := rfl
@[simp] theorem State.setAddr_sw (v : Addr) : (s.setAddr v).sw = s.sw := rfl
@[simp] theorem State.setAddr_inputs (v : Addr) : (s.setAddr v).inputs = s.inputs := rfl
@[simp] theorem State.setAddr_trace (v : Addr) : (s.setAddr v).trace = s.trace := rfl
@[simp] theorem State.setAddr_pinTrace (v : Addr) : (s.setAddr v).pinTrace = s.pinTrace := rfl

@[simp] theorem State.setData_cfg (v : Level) : (s.setData v).cfg = s.cfg := rfl
@[simp] theorem State.setData_edgePhase (v : Level) : (s.setData v).edgePhase = s.edgePhase := rfl
@[simp] theorem State.setData_bitCount (v : Level) : (s.setData v).bitCount = s.bitCount := rfl
@[simp] theorem State.setData_acc (v : Level) : (s.setData v).acc = s.acc := rfl
@[simp] theorem State.setData_ext (v : Level) : (s.setData v).ext = s.ext := rfl
@[simp] theorem State.setData_ts (v : Level) : (s.setData v).ts = s.ts := rfl
@[simp] theorem State.setData_symHeld (v : Level) : (s.setData v).symHeld = s.symHeld := rfl
@[simp] theorem State.setData_digitApplied (v : Level) : (s.setData v).digitApplied = s.digitApplied := rfl
@[simp] theorem State.setData_rsHeld (v : Level) : (s.setData v).rsHeld = s.rsHeld := rfl
@[simp] theorem State.setData_rsPunctApplied (v : Level) : (s.setData v).rsPunctApplied = s.rsPunctApplied := rfl
@[simp] theorem State.setData_lastCode (v : Level) : (s.setData v).lastCode = s.lastCode := rfl
@[simp] theorem State.setData_irqEn (v : Level) : (s.setData v).irqEn = s.irqEn := rfl
@[simp] theorem State.setData_busy (v : Level) : (s.setData v).busy = s.busy := rfl
@[simp] theorem State.setData_addr (v : Level) : (s.setData v).addr = s.addr := rfl
@[simp] theorem State.setData_data (v : Level) : (s.setData v).data = v := rfl
@[simp] theorem State.setData_strobe (v : Level) : (s.setData v).strobe = s.strobe := rfl
@[simp] theorem State.setData_resetLine (v : Level) : (s.setData v).resetLine = s.resetLine := rfl
@[simp] theorem State.setData_ps2Clk (v : Level) : (s.setData v).ps2Clk = s.ps2Clk := rfl
@[simp] theorem State.setData_ps2Dat (v : Level) : (s.setData v).ps2Dat = s.ps2Dat := rfl
@[simp] theorem State.setData_sw (v : Level) : (s.setData v).sw = s.sw := rfl
@[simp] theorem State.setData_inputs (v : Level) : (s.setData v).inputs = s.inputs := rfl
@[simp] theorem State.setData_trace (v : Level) : (s.setData v).trace = s.trace := rfl
@[simp] theorem State.setData_pinTrace (v : Level) : (s.setData v).pinTrace = s.pinTrace := rfl

@[simp] theorem State.setStrobe_cfg (v : Level) : (s.setStrobe v).cfg = s.cfg := rfl
@[simp] theorem State.setStrobe_edgePhase (v : Level) : (s.setStrobe v).edgePhase = s.edgePhase := rfl
@[simp] theorem State.setStrobe_bitCount (v : Level) : (s.setStrobe v).bitCount = s.bitCount := rfl
@[simp] theorem State.setStrobe_acc (v : Level) : (s.setStrobe v).acc = s.acc := rfl
@[simp] theorem State.setStrobe_ext (v : Level) : (s.setStrobe v).ext = s.ext := rfl
@[simp] theorem State.setStrobe_ts (v : Level) : (s.setStrobe v).ts = s.ts := rfl
@[simp] theorem State.setStrobe_symHeld (v : Level) : (s.setStrobe v).symHeld = s.symHeld := rfl
@[simp] theorem State.setStrobe_digitApplied (v : Level) : (s.setStrobe v).digitApplied = s.digitApplied := rfl
@[simp] theorem State.setStrobe_rsHeld (v : Level) : (s.setStrobe v).rsHeld = s.rsHeld := rfl
@[simp] theorem State.setStrobe_rsPunctApplied (v : Level) : (s.setStrobe v).rsPunctApplied = s.rsPunctApplied := rfl
@[simp] theorem State.setStrobe_lastCode (v : Level) : (s.setStrobe v).lastCode = s.lastCode := rfl
@[simp] theorem State.setStrobe_irqEn (v : Level) : (s.setStrobe v).irqEn = s.irqEn := rfl
@[simp] theorem State.setStrobe_busy (v : Level) : (s.setStrobe v).busy = s.busy := rfl
@[simp] theorem State.setStrobe_addr (v : Level) : (s.setStrobe v).addr = s.addr := rfl
@[simp] theorem State.setStrobe_data (v : Level) : (s.setStrobe v).data = s.data := rfl
@[simp] theorem State.setStrobe_strobe (v : Level) : (s.setStrobe v).strobe = v := rfl
@[simp] theorem State.setStrobe_resetLine (v : Level) : (s.setStrobe v).resetLine = s.resetLine := rfl
@[simp] theorem State.setStrobe_ps2Clk (v : Level) : (s.setStrobe v).ps2Clk = s.ps2Clk := rfl
@[simp] theorem State.setStrobe_ps2Dat (v : Level) : (s.setStrobe v).ps2Dat = s.ps2Dat := rfl
@[simp] theorem State.setStrobe_sw (v : Level) : (s.setStrobe v).sw = s.sw := rfl
@[simp] theorem State.setStrobe_inputs (v : Level) : (s.setStrobe v).inputs = s.inputs := rfl
@[simp] theorem State.setStrobe_trace (v : Level) : (s.setStrobe v).trace = s.trace := rfl
@[simp] theorem State.setStrobe_pinTrace (v : Level) : (s.setStrobe v).pinTrace = s.pinTrace := rfl

@[simp] theorem State.setResetLine_cfg (v : Level) : (s.setResetLine v).cfg = s.cfg := rfl
@[simp] theorem State.setResetLine_edgePhase (v : Level) : (s.setResetLine v).edgePhase = s.edgePhase := rfl
@[simp] theorem State.setResetLine_bitCount (v : Level) : (s.setResetLine v).bitCount = s.bitCount := rfl
@[simp] theorem State.setResetLine_acc (v : Level) : (s.setResetLine v).acc = s.acc := rfl
@[simp] theorem State.setResetLine_ext (v : Level) : (s.setResetLine v).ext = s.ext := rfl
@[simp] theorem State.setResetLine_ts (v : Level) : (s.setResetLine v).ts = s.ts := rfl
@[simp] theorem State.setResetLine_symHeld (v : Level) : (s.setResetLine v).symHeld = s.symHeld := rfl
@[simp] theorem State.setResetLine_digitApplied (v : Level) : (s.setResetLine v).digitApplied = s.digitApplied := rfl
@[simp] theorem State.setResetLine_rsHeld (v : Level) : (s.setResetLine v).rsHeld = s.rsHeld := rfl
@[simp] theorem State.setResetLine_rsPunctApplied (v : Level) : (s.setResetLine v).rsPunctApplied = s.rsPunctApplied := rfl
@[simp] theorem State.setResetLine_lastCode (v : Level) : (s.setResetLine v).lastCode = s.lastCode := rfl
@[simp] theorem State.setResetLine_irqEn (v : Level) : (s.setResetLine v).irqEn = s.irqEn := rfl
@[simp] theorem State.setResetLine_busy (v : Level) : (s.setResetLine v).busy = s.busy := rfl
@[simp] theorem State.setResetLine_addr (v : Level) : (s.setResetLine v).addr = s.addr := rfl
@[simp] theorem State.setResetLine_data (v : Level) : (s.setResetLine v).data = s.data := rfl
@[simp] theorem State.setResetLine_strobe (v : Level) : (s.setResetLine v).strobe = s.strobe := rfl
@[simp] theorem State.setResetLine_resetLine (v : Level) : (s.setResetLine v).resetLine = v := rfl
@[simp] theorem State.setResetLine_ps2Clk (v : Level) : (s.setResetLine v).ps2Clk = s.ps2Clk := rfl
@[simp] theorem State.setResetLine_ps2Dat (v : Level) : (s.setResetLine v).ps2Dat = s.ps2Dat := rfl
@[simp] theorem State.setResetLine_sw (v : Level) : (s.setResetLine v).sw = s.sw := rfl
@[simp] theorem State.setResetLine_inputs (v : Level) : (s.setResetLine v).inputs = s.inputs := rfl
@[simp] theorem State.setResetLine_trace (v : Level) : (s.setResetLine v).trace = s.trace := rfl
@[simp] theorem State.setResetLine_pinTrace (v : Level) : (s.setResetLine v).pinTrace = s.pinTrace := rfl

@[simp] theorem State.setPs2_cfg (c d : Level) : (s.setPs2 c d).cfg = s.cfg := rfl
@[simp] theorem State.setPs2_edgePhase (c d : Level) : (s.setPs2 c d).edgePhase = s.edgePhase := rfl
@[simp] theorem State.setPs2_bitCount (c d : Level) : (s.setPs2 c d).bitCount = s.bitCount := rfl
@[simp] theorem State.setPs2_acc (c d : Level) : (s.setPs2 c d).acc = s.acc := rfl
@[simp] theorem State.setPs2_ext (c d : Level) : (s.setPs2 c d).ext = s.ext := rfl
@[simp] theorem State.setPs2_ts (c d : Level) : (s.setPs2 c d).ts = s.ts := rfl
@[simp] theorem State.setPs2_symHeld (c d : Level) : (s.setPs2 c d).symHeld = s.symHeld := rfl
@[simp] theorem State.setPs2_digitApplied (c d : Level) : (s.setPs2 c d).digitApplied = s.digitApplied := rfl
@[simp] theorem State.setPs2_rsHeld (c d : Level) : (s.setPs2 c d).rsHeld = s.rsHeld := rfl
@[simp] theorem State.setPs2_rsPunctApplied (c d : Level) : (s.setPs2 c d).rsPunctApplied = s.rsPunctApplied := rfl
@[simp] theorem State.setPs2_lastCode (c d : Level) : (s.setPs2 c d).lastCode = s.lastCode := rfl
@[simp] theorem State.setPs2_irqEn (c d : Level) : (s.setPs2 c d).irqEn = s.irqEn := rfl
@[simp] theorem State.setPs2_busy (c d : Level) : (s.setPs2 c d).busy = s.busy := rfl
@[simp] theorem State.setPs2_addr (c d : Level) : (s.setPs2 c d).addr = s.addr := rfl
@[simp] theorem State.setPs2_data (c d : Level) : (s.setPs2 c d).data = s.data := rfl
@[simp] theorem State.setPs2_strobe (c d : Level) : (s.setPs2 c d).strobe = s.strobe := rfl
@[simp] theorem State.setPs2_resetLine (c d : Level) : (s.setPs2 c d).resetLine = s.resetLine := rfl
@[simp] theorem State.setPs2_ps2Clk (c d : Level) : (s.setPs2 c d).ps2Clk = c := rfl
@[simp] theorem State.setPs2_ps2Dat (c d : Level) : (s.setPs2 c d).ps2Dat = d := rfl
@[simp] theorem State.setPs2_sw (c d : Level) : (s.setPs2 c d).sw = s.sw := rfl
@[simp] theorem State.setPs2_inputs (c d : Level) : (s.setPs2 c d).inputs = s.inputs := rfl
@[simp] theorem State.setPs2_trace (c d : Level) : (s.setPs2 c d).trace = s.trace := rfl
@[simp] theorem State.setPs2_pinTrace (c d : Level) : (s.setPs2 c d).pinTrace = s.pinTrace := rfl

@[simp] theorem State.setSw_cfg (v : Memory) : (s.setSw v).cfg = s.cfg := rfl
@[simp] theorem State.setSw_edgePhase (v : Memory) : (s.setSw v).edgePhase = s.edgePhase := rfl
@[simp] theorem State.setSw_bitCount (v : Memory) : (s.setSw v).bitCount = s.bitCount := rfl
@[simp] theorem State.setSw_acc (v : Memory) : (s.setSw v).acc = s.acc := rfl
@[simp] theorem State.setSw_ext (v : Memory) : (s.setSw v).ext = s.ext := rfl
@[simp] theorem State.setSw_ts (v : Memory) : (s.setSw v).ts = s.ts := rfl
@[simp] theorem State.setSw_symHeld (v : Memory) : (s.setSw v).symHeld = s.symHeld := rfl
@[simp] theorem State.setSw_digitApplied (v : Memory) : (s.setSw v).digitApplied = s.digitApplied := rfl
@[simp] theorem State.setSw_rsHeld (v : Memory) : (s.setSw v).rsHeld = s.rsHeld := rfl
@[simp] theorem State.setSw_rsPunctApplied (v : Memory) : (s.setSw v).rsPunctApplied = s.rsPunctApplied := rfl
@[simp] theorem State.setSw_lastCode (v : Memory) : (s.setSw v).lastCode = s.lastCode := rfl
@[simp] theorem State.setSw_irqEn (v : Memory) : (s.setSw v).irqEn = s.irqEn := rfl
@[simp] theorem State.setSw_busy (v : Memory) : (s.setSw v).busy = s.busy := rfl
@[simp] theorem State.setSw_addr (v : Memory) : (s.setSw v).addr = s.addr := rfl
@[simp] theorem State.setSw_data (v : Memory) : (s.setSw v).data = s.data := rfl
@[simp] theorem State.setSw_strobe (v : Memory) : (s.setSw v).strobe = s.strobe := rfl
@[simp] theorem State.setSw_resetLine (v : Memory) : (s.setSw v).resetLine = s.resetLine := rfl
@[simp] theorem State.setSw_ps2Clk (v : Memory) : (s.setSw v).ps2Clk = s.ps2Clk := rfl
@[simp] theorem State.setSw_ps2Dat (v : Memory) : (s.setSw v).ps2Dat = s.ps2Dat := rfl
@[simp] theorem State.setSw_sw (v : Memory) : (s.setSw v).sw = v := rfl
@[simp] theorem State.setSw_inputs (v : Memory) : (s.setSw v).inputs = s.inputs := rfl
@[simp] theorem State.setSw_trace (v : Memory) : (s.setSw v).trace = s.trace := rfl
@[simp] theorem State.setSw_pinTrace (v : Memory) : (s.setSw v).pinTrace = s.pinTrace := rfl

@[simp] theorem State.setInputs_cfg (v : List Input) : (s.setInputs v).cfg = s.cfg := rfl
@[simp] theorem State.setInputs_edgePhase (v : List Input) : (s.setInputs v).edgePhase = s.edgePhase := rfl
@[simp] theorem State.setInputs_bitCount (v : List Input) : (s.setInputs v).bitCount = s.bitCount := rfl
@[simp] theorem State.setInputs_acc (v : List Input) : (s.setInputs v).acc = s.acc := rfl
@[simp] theorem State.setInputs_ext (v : List Input) : (s.setInputs v).ext = s.ext := rfl
@[simp] theorem State.setInputs_ts (v : List Input) : (s.setInputs v).ts = s.ts := rfl
@[simp] theorem State.setInputs_symHeld (v : List Input) : (s.setInputs v).symHeld = s.symHeld := rfl
@[simp] theorem State.setInputs_digitApplied (v : List Input) : (s.setInputs v).digitApplied = s.digitApplied := rfl
@[simp] theorem State.setInputs_rsHeld (v : List Input) : (s.setInputs v).rsHeld = s.rsHeld := rfl
@[simp] theorem State.setInputs_rsPunctApplied (v : List Input) : (s.setInputs v).rsPunctApplied = s.rsPunctApplied := rfl
@[simp] theorem State.setInputs_lastCode (v : List Input) : (s.setInputs v).lastCode = s.lastCode := rfl
@[simp] theorem State.setInputs_irqEn (v : List Input) : (s.setInputs v).irqEn = s.irqEn := rfl
@[simp] theorem State.setInputs_busy (v : List Input) : (s.setInputs v).busy = s.busy := rfl
@[simp] theorem State.setInputs_addr (v : List Input) : (s.setInputs v).addr = s.addr := rfl
@[simp] theorem State.setInputs_data (v : List Input) : (s.setInputs v).data = s.data := rfl
@[simp] theorem State.setInputs_strobe (v : List Input) : (s.setInputs v).strobe = s.strobe := rfl
@[simp] theorem State.setInputs_resetLine (v : List Input) : (s.setInputs v).resetLine = s.resetLine := rfl
@[simp] theorem State.setInputs_ps2Clk (v : List Input) : (s.setInputs v).ps2Clk = s.ps2Clk := rfl
@[simp] theorem State.setInputs_ps2Dat (v : List Input) : (s.setInputs v).ps2Dat = s.ps2Dat := rfl
@[simp] theorem State.setInputs_sw (v : List Input) : (s.setInputs v).sw = s.sw := rfl
@[simp] theorem State.setInputs_inputs (v : List Input) : (s.setInputs v).inputs = v := rfl
@[simp] theorem State.setInputs_trace (v : List Input) : (s.setInputs v).trace = s.trace := rfl
@[simp] theorem State.setInputs_pinTrace (v : List Input) : (s.setInputs v).pinTrace = s.pinTrace := rfl

@[simp] theorem State.emit_cfg (x : TraceItem) : (s.emit x).cfg = s.cfg := rfl
@[simp] theorem State.emit_edgePhase (x : TraceItem) : (s.emit x).edgePhase = s.edgePhase := rfl
@[simp] theorem State.emit_bitCount (x : TraceItem) : (s.emit x).bitCount = s.bitCount := rfl
@[simp] theorem State.emit_acc (x : TraceItem) : (s.emit x).acc = s.acc := rfl
@[simp] theorem State.emit_ext (x : TraceItem) : (s.emit x).ext = s.ext := rfl
@[simp] theorem State.emit_ts (x : TraceItem) : (s.emit x).ts = s.ts := rfl
@[simp] theorem State.emit_symHeld (x : TraceItem) : (s.emit x).symHeld = s.symHeld := rfl
@[simp] theorem State.emit_digitApplied (x : TraceItem) : (s.emit x).digitApplied = s.digitApplied := rfl
@[simp] theorem State.emit_rsHeld (x : TraceItem) : (s.emit x).rsHeld = s.rsHeld := rfl
@[simp] theorem State.emit_rsPunctApplied (x : TraceItem) : (s.emit x).rsPunctApplied = s.rsPunctApplied := rfl
@[simp] theorem State.emit_lastCode (x : TraceItem) : (s.emit x).lastCode = s.lastCode := rfl
@[simp] theorem State.emit_irqEn (x : TraceItem) : (s.emit x).irqEn = s.irqEn := rfl
@[simp] theorem State.emit_busy (x : TraceItem) : (s.emit x).busy = s.busy := rfl
@[simp] theorem State.emit_addr (x : TraceItem) : (s.emit x).addr = s.addr := rfl
@[simp] theorem State.emit_data (x : TraceItem) : (s.emit x).data = s.data := rfl
@[simp] theorem State.emit_strobe (x : TraceItem) : (s.emit x).strobe = s.strobe := rfl
@[simp] theorem State.emit_resetLine (x : TraceItem) : (s.emit x).resetLine = s.resetLine := rfl
@[simp] theorem State.emit_ps2Clk (x : TraceItem) : (s.emit x).ps2Clk = s.ps2Clk := rfl
@[simp] theorem State.emit_ps2Dat (x : TraceItem) : (s.emit x).ps2Dat = s.ps2Dat := rfl
@[simp] theorem State.emit_sw (x : TraceItem) : (s.emit x).sw = s.sw := rfl
@[simp] theorem State.emit_inputs (x : TraceItem) : (s.emit x).inputs = s.inputs := rfl
@[simp] theorem State.emit_trace (x : TraceItem) : (s.emit x).trace = s.trace ++ [x] := rfl
@[simp] theorem State.emit_pinTrace (x : TraceItem) : (s.emit x).pinTrace = s.pinTrace := rfl

@[simp] theorem State.emitPin_cfg (x : PinItem) : (s.emitPin x).cfg = s.cfg := rfl
@[simp] theorem State.emitPin_edgePhase (x : PinItem) : (s.emitPin x).edgePhase = s.edgePhase := rfl
@[simp] theorem State.emitPin_bitCount (x : PinItem) : (s.emitPin x).bitCount = s.bitCount := rfl
@[simp] theorem State.emitPin_acc (x : PinItem) : (s.emitPin x).acc = s.acc := rfl
@[simp] theorem State.emitPin_ext (x : PinItem) : (s.emitPin x).ext = s.ext := rfl
@[simp] theorem State.emitPin_ts (x : PinItem) : (s.emitPin x).ts = s.ts := rfl
@[simp] theorem State.emitPin_symHeld (x : PinItem) : (s.emitPin x).symHeld = s.symHeld := rfl
@[simp] theorem State.emitPin_digitApplied (x : PinItem) : (s.emitPin x).digitApplied = s.digitApplied := rfl
@[simp] theorem State.emitPin_rsHeld (x : PinItem) : (s.emitPin x).rsHeld = s.rsHeld := rfl
@[simp] theorem State.emitPin_rsPunctApplied (x : PinItem) : (s.emitPin x).rsPunctApplied = s.rsPunctApplied := rfl
@[simp] theorem State.emitPin_lastCode (x : PinItem) : (s.emitPin x).lastCode = s.lastCode := rfl
@[simp] theorem State.emitPin_irqEn (x : PinItem) : (s.emitPin x).irqEn = s.irqEn := rfl
@[simp] theorem State.emitPin_busy (x : PinItem) : (s.emitPin x).busy = s.busy := rfl
@[simp] theorem State.emitPin_addr (x : PinItem) : (s.emitPin x).addr = s.addr := rfl
@[simp] theorem State.emitPin_data (x : PinItem) : (s.emitPin x).data = s.data := rfl
@[simp] theorem State.emitPin_strobe (x : PinItem) : (s.emitPin x).strobe = s.strobe := rfl
@[simp] theorem State.emitPin_resetLine (x : PinItem) : (s.emitPin x).resetLine = s.resetLine := rfl
@[simp] theorem State.emitPin_ps2Clk (x : PinItem) : (s.emitPin x).ps2Clk = s.ps2Clk := rfl
@[simp] theorem State.emitPin_ps2Dat (x : PinItem) : (s.emitPin x).ps2Dat = s.ps2Dat := rfl
@[simp] theorem State.emitPin_sw (x : PinItem) : (s.emitPin x).sw = s.sw := rfl
@[simp] theorem State.emitPin_inputs (x : PinItem) : (s.emitPin x).inputs = s.inputs := rfl
@[simp] theorem State.emitPin_trace (x : PinItem) : (s.emitPin x).trace = s.trace := rfl
@[simp] theorem State.emitPin_pinTrace (x : PinItem) : (s.emitPin x).pinTrace = s.pinTrace ++ [x] := rfl

end Sys2Proof.Machine
end

