-- ==== Sys2Proof/Laws/Bus.lean ====
section
/-! SUPPORT. What each shared operation on the switch bus does, said once in the transaction-level view: the pin
sequences of the driver end in `afterItem`, and the work on encodings in `afterItems` of its list of items. -/

namespace Sys2Proof.Machine

/-! ### `afterItem`, field by field -/

variable (s : State) (x : TraceItem)

@[simp] theorem afterItem_cfg : (afterItem s x).cfg = s.cfg := rfl
@[simp] theorem afterItem_edgePhase : (afterItem s x).edgePhase = s.edgePhase := rfl
@[simp] theorem afterItem_bitCount : (afterItem s x).bitCount = s.bitCount := rfl
@[simp] theorem afterItem_acc : (afterItem s x).acc = s.acc := rfl
@[simp] theorem afterItem_ext : (afterItem s x).ext = s.ext := rfl
@[simp] theorem afterItem_ts : (afterItem s x).ts = s.ts := rfl
@[simp] theorem afterItem_symHeld : (afterItem s x).symHeld = s.symHeld := rfl
@[simp] theorem afterItem_digitApplied : (afterItem s x).digitApplied = s.digitApplied := rfl
@[simp] theorem afterItem_rsHeld : (afterItem s x).rsHeld = s.rsHeld := rfl
@[simp] theorem afterItem_rsPunctApplied : (afterItem s x).rsPunctApplied = s.rsPunctApplied := rfl
@[simp] theorem afterItem_lastCode : (afterItem s x).lastCode = s.lastCode := rfl
@[simp] theorem afterItem_irqEn : (afterItem s x).irqEn = s.irqEn := rfl
@[simp] theorem afterItem_busy : (afterItem s x).busy = s.busy := rfl
@[simp] theorem afterItem_ps2Clk : (afterItem s x).ps2Clk = s.ps2Clk := rfl
@[simp] theorem afterItem_ps2Dat : (afterItem s x).ps2Dat = s.ps2Dat := rfl
@[simp] theorem afterItem_inputs : (afterItem s x).inputs = s.inputs := rfl
@[simp] theorem afterItem_sw : (afterItem s x).sw = applyItem s.sw x := rfl
@[simp] theorem afterItem_trace : (afterItem s x).trace = s.trace ++ [x] := rfl
@[simp] theorem afterItem_pinTrace : (afterItem s x).pinTrace = s.pinTrace ++ pinsOf s.cfg x := rfl

/-! ### `afterItems` -/

variable (xs ys : List TraceItem)

@[simp] theorem afterItems_nil : afterItems [] s = s := rfl

theorem afterItems_cons : afterItems (x :: xs) s = afterItems xs (afterItem s x) := rfl

theorem afterItems_append : afterItems (xs ++ ys) s = afterItems ys (afterItems xs s) := List.foldl_append

theorem afterItems_single : afterItems [x] s = afterItem s x := rfl

/-- Everything a list of items leaves alone. -/
theorem afterItems_frame :
    (afterItems xs s).cfg = s.cfg ∧ decoderRegs (afterItems xs s) = decoderRegs s ∧ (afterItems xs s).ext = s.ext ∧
    (afterItems xs s).ts = s.ts ∧ latches (afterItems xs s) = latches s ∧ (afterItems xs s).lastCode = s.lastCode ∧
    (afterItems xs s).irqEn = s.irqEn ∧ (afterItems xs s).busy = s.busy ∧ (afterItems xs s).ps2Clk = s.ps2Clk ∧
    (afterItems xs s).ps2Dat = s.ps2Dat ∧ (afterItems xs s).inputs = s.inputs := by
  induction xs generalizing s with
  | nil => simp
  | cons x xs ih => simpa [afterItems_cons, decoderRegs, latches] using ih (afterItem s x)

@[simp] theorem afterItems_cfg : (afterItems xs s).cfg = s.cfg := (afterItems_frame s xs).1
@[simp] theorem afterItems_ext : (afterItems xs s).ext = s.ext := (afterItems_frame s xs).2.2.1
@[simp] theorem afterItems_ts : (afterItems xs s).ts = s.ts := (afterItems_frame s xs).2.2.2.1
@[simp] theorem afterItems_lastCode : (afterItems xs s).lastCode = s.lastCode := (afterItems_frame s xs).2.2.2.2.2.1
@[simp] theorem afterItems_irqEn : (afterItems xs s).irqEn = s.irqEn := (afterItems_frame s xs).2.2.2.2.2.2.1
@[simp] theorem afterItems_busy : (afterItems xs s).busy = s.busy := (afterItems_frame s xs).2.2.2.2.2.2.2.1
@[simp] theorem afterItems_ps2Clk : (afterItems xs s).ps2Clk = s.ps2Clk := (afterItems_frame s xs).2.2.2.2.2.2.2.2.1
@[simp] theorem afterItems_ps2Dat : (afterItems xs s).ps2Dat = s.ps2Dat := (afterItems_frame s xs).2.2.2.2.2.2.2.2.2.1
@[simp] theorem afterItems_inputs : (afterItems xs s).inputs = s.inputs := (afterItems_frame s xs).2.2.2.2.2.2.2.2.2.2
@[simp] theorem afterItems_decoderRegs : decoderRegs (afterItems xs s) = decoderRegs s := (afterItems_frame s xs).2.1
@[simp] theorem afterItems_latches : latches (afterItems xs s) = latches s := (afterItems_frame s xs).2.2.2.2.1
@[simp] theorem afterItems_edgePhase : (afterItems xs s).edgePhase = s.edgePhase :=
  congrArg (·.1) (afterItems_decoderRegs s xs)
@[simp] theorem afterItems_bitCount : (afterItems xs s).bitCount = s.bitCount :=
  congrArg (·.2.1) (afterItems_decoderRegs s xs)
@[simp] theorem afterItems_acc : (afterItems xs s).acc = s.acc := congrArg (·.2.2) (afterItems_decoderRegs s xs)
@[simp] theorem afterItems_symHeld : (afterItems xs s).symHeld = s.symHeld := congrArg (·.1) (afterItems_latches s xs)
@[simp] theorem afterItems_digitApplied : (afterItems xs s).digitApplied = s.digitApplied :=
  congrArg (·.2.1) (afterItems_latches s xs)
@[simp] theorem afterItems_rsHeld : (afterItems xs s).rsHeld = s.rsHeld :=
  congrArg (·.2.2.1) (afterItems_latches s xs)
@[simp] theorem afterItems_rsPunctApplied : (afterItems xs s).rsPunctApplied = s.rsPunctApplied :=
  congrArg (·.2.2.2) (afterItems_latches s xs)

@[simp] theorem afterItems_trace : (afterItems xs s).trace = s.trace ++ xs := by
  induction xs generalizing s with
  | nil => simp
  | cons x xs ih => simp [afterItems_cons, ih]

@[simp] theorem afterItems_sw : (afterItems xs s).sw = applyTrace s.sw xs := by
  induction xs generalizing s with
  | nil => rfl
  | cons x xs ih => simp [afterItems_cons, ih]

@[simp] theorem afterItems_pinTrace : (afterItems xs s).pinTrace = s.pinTrace ++ xs.flatMap (pinsOf s.cfg) := by
  induction xs generalizing s with
  | nil => simp
  | cons x xs ih => simp [afterItems_cons, ih]

/-! ### The driver and the delays are items -/

theorem Level.inv_ne (l : Level) : l.inv ≠ l := by cases l <;> decide

theorem dataLevel_commands (c : Config) (closed : Bool) : (dataLevel c closed == c.dataClosed) = closed := by
  cases closed <;> cases h : c.dataClosed <;> simp [dataLevel, Level.inv, h]

/-- `SwSet` at pin level is `Set` at transaction level (R143 against R142, R150), from every state. -/
theorem swSet_eq (a : Addr) (closed : Bool) : swSet a closed s = afterItem s (.set a closed) := by
  have hne := Level.inv_ne s.cfg.strobeActive
  simp only [swSet, driveAddr, driveData, driveStrobe, pinDelay, latchPoint, afterItem, applyItem, pinsOf]
  by_cases h : s.strobe = s.cfg.strobeActive <;>
    simp [h, hne, State.setAddr, State.setData, State.setStrobe, State.setSw, State.emit, State.emitPin, dataLevel_commands]

/-- `SwReset` at pin level is `Reset` at transaction level (R141 against R151). -/
theorem swReset_eq : swReset s = afterItem s .reset := by
  have hne := Level.inv_ne s.cfg.resetActive
  simp [swReset, driveResetLine, pinDelay, afterItem, applyItem, pinsOf, hne, State.setResetLine, State.setSw,
    State.emit, State.emitPin]

/-- A delay of the Translator or the MacroPlayer is one item of both levels. -/
theorem delay_eq (t : Duration) : delay t s = afterItem s (.delay t) := by
  simp [delay, afterItem, applyItem, pinsOf, State.emit, State.emitPin]

/-! ### Register writes and items commute -/

theorem afterItem_setSymHeld (v : Bool) : afterItem (s.setSymHeld v) x = (afterItem s x).setSymHeld v := rfl

theorem afterItems_setSymHeld (v : Bool) : afterItems xs (s.setSymHeld v) = (afterItems xs s).setSymHeld v := by
  induction xs generalizing s with
  | nil => rfl
  | cons x xs ih => simp only [afterItems_cons, afterItem_setSymHeld, ih]

theorem afterItems_noteSymKey (enc : Byte) (v : Bool) :
    afterItems xs (noteSymKey enc v s) = noteSymKey enc v (afterItems xs s) := by
  unfold noteSymKey
  simp only [afterItems_cfg]
  split
  · exact afterItems_setSymHeld s xs v
  · rfl

theorem afterItem_noteSymKey (enc : Byte) (v : Bool) :
    afterItem (noteSymKey enc v s) x = noteSymKey enc v (afterItem s x) :=
  afterItems_noteSymKey s [x] enc v

/-! ### The work on encodings is a list of items -/

/-- The SYM latch after work on an encoding (R115, R116, R117). -/
def symAfter (enc : Byte) (v : Bool) (s : State) : State := onlyIf (needsSym enc) (noteSymKey enc v) s

theorem afterItems_symAfter (enc : Byte) (v : Bool) :
    afterItems xs (symAfter enc v s) = symAfter enc v (afterItems xs s) := by
  unfold symAfter onlyIf
  split
  · exact afterItems_noteSymKey s xs enc v
  · rfl

@[simp] theorem noteSymKey_cfg (enc : Byte) (v : Bool) : (noteSymKey enc v s).cfg = s.cfg := by
  unfold noteSymKey; split <;> rfl

@[simp] theorem symAfter_cfg (enc : Byte) (v : Bool) : (symAfter enc v s).cfg = s.cfg := by
  unfold symAfter onlyIf; split <;> simp

/-- `AssertOne` (R115): its items, and the latch of the SYM key. -/
theorem assertOne_eq (enc : Byte) : assertOne enc s = afterItems (encItems s.cfg enc true) (symAfter enc true s) := by
  rw [afterItems_symAfter]
  unfold assertOne encItems symAfter onlyIf
  cases needsCaps enc <;> cases needsSym enc <;>
    simp [swSet_eq, afterItems_cons, afterItem_noteSymKey]

/-- `ReleaseOne` (R117): its items, and the latch of the SYM key. -/
theorem releaseOne_eq (enc : Byte) :
    releaseOne enc s = afterItems (encItems s.cfg enc false) (symAfter enc false s) := by
  rw [afterItems_symAfter]
  unfold releaseOne encItems symAfter onlyIf
  cases needsCaps enc <;> cases needsSym enc <;>
    simp [swSet_eq, afterItems_cons, afterItem_noteSymKey]

/-- `PostPrimary` (R118): its items. -/
theorem postPrimary_eq (p q : Byte) : postPrimary p q s = afterItems (postItems s.cfg p q) s := by
  unfold postPrimary postItems onlyIf
  cases needsCaps p && !needsCaps q <;> cases needsSym p && !needsSym q <;>
    simp [swSet_eq, delay_eq, afterItems_cons]

/-- The recovery (R172): five registers cleared, one `Reset`. -/
theorem raiseDesync_eq (cause : Cause) : raiseDesync cause s = afterItem (clearLatches s) .reset := swReset_eq _

end Sys2Proof.Machine
end

