-- ==== Sys2Proof/Laws/Key.lean ====
section
/-! SUPPORT. What the key path does: the front end `resolve` writes three registers and nothing else, and the switch
work of a make or a break is a list of items and one latch. -/

namespace Sys2Proof.Machine

variable (s : State)

/-! ### The front end -/

theorem punctRemap_state (code : Byte) (rel : Bool) :
    (punctRemap code rel s).2 = s.setRsPunctApplied (if punctGate s code then !rel else s.rsPunctApplied) := by
  unfold punctRemap; split <;> rfl

theorem digitRelocate_state (kc : KeyCode) (rel : Bool) :
    (digitRelocate kc rel s).2 =
      s.setDigitApplied (if digitGate s rel && isRelocatable s.cfg kc then !rel else s.digitApplied) := by
  unfold digitRelocate; split <;> rfl

/-- The code after the punctuation remap (R110). -/
def remappedCode (code : Byte) : Byte :=
  if punctGate s code then add8 code (punctDeltaAt s.cfg s.ext code).value else code

/-- The pair looked up (R111). -/
def lookedUp (code : Byte) : KeyCode := keyTable s.cfg s.ext (remappedCode s code)

/-- The relocation is applied to the pair looked up (R113). -/
def relocates (code : Byte) (rel : Bool) : Bool := digitGate s rel && isRelocatable s.cfg (lookedUp s code)

/-- `Resolve` (R109) in one equation: the pair and the three registers written. -/
theorem resolve_eq (code : Byte) (rel : Bool) :
    resolve code rel s =
      (if relocates s code rel then
          ⟨relocated s.cfg (lookedUp s code).pri, relocated s.cfg (lookedUp s code).sec⟩
        else lookedUp s code,
       { s with ext := false
                rsPunctApplied := if punctGate s code then !rel else s.rsPunctApplied
                digitApplied := if relocates s code rel then !rel else s.digitApplied }) := by
  unfold resolve punctRemap lookupKey digitRelocate relocates lookedUp remappedCode
  by_cases hp : punctGate s code = true
  · simp only [hp, if_true]
    cases rel <;> simp [digitGate, State.setRsPunctApplied, State.setExt, State.setDigitApplied] <;> split <;> simp_all
  · simp only [hp]
    cases rel <;> simp [digitGate, State.setExt, State.setDigitApplied] <;> split <;> simp_all

/-- `Resolve` does not read `lastCode`. -/
theorem resolve_setLastCode (code v : Byte) (rel : Bool) :
    resolve code rel (s.setLastCode v) = ((resolve code rel s).1, (resolve code rel s).2.setLastCode v) := by
  rw [resolve_eq, resolve_eq]; rfl

/-! ### The switch work -/

/-- The SYM latch after work on one encoding, as one write. -/
theorem symAfter_eq (enc : Byte) (v : Bool) :
    symAfter enc v s = s.setSymHeld (if isSymKey s.cfg enc then v else s.symHeld) := by
  unfold symAfter onlyIf noteSymKey isSymKey
  by_cases h1 : needsSym enc = true <;> by_cases h2 : enc = s.cfg.symKeyEnc
  · subst h2; simp [h1]
  · simp [h1, h2]; rfl
  · simp [h1]; rfl
  · simp [h1]; rfl

@[simp] theorem setSymHeld_setSymHeld (a b : Bool) : (s.setSymHeld a).setSymHeld b = s.setSymHeld b := rfl

@[simp] theorem setSymHeld_self : s.setSymHeld s.symHeld = s := rfl

@[simp] theorem isSymKey_zero (c : Config) : isSymKey c 0x00#8 = false := by
  have h : needsSym 0x00#8 = false := by decide
  simp [isSymKey, h]

/-- The switch work of a make (R114): the items of the pair, and `symHeld` set if the pair holds the SYM key. -/
theorem assertKey_eq (kc : KeyCode) :
    assertKey kc s = afterItems (makeItems s.cfg kc) (s.setSymHeld (s.symHeld || touchesSymKey s.cfg kc)) := by
  obtain ⟨p, q⟩ := kc
  unfold assertKey makeItems touchesSymKey onlyIf
  by_cases hp : p = 0x00#8 <;> by_cases hq : q = 0x00#8 <;>
    simp [hp, hq, assertOne_eq, postPrimary_eq, symAfter_eq, afterItems_append, afterItems_setSymHeld] <;>
    (congr 1; cases s.symHeld <;> cases isSymKey s.cfg p <;> cases isSymKey s.cfg q <;> rfl)

/-- The switch work of a break (R117): the items of the pair, and `symHeld` cleared if the pair holds the SYM key. -/
theorem releaseKey_eq (kc : KeyCode) :
    releaseKey kc s = afterItems (breakItems s.cfg kc) (s.setSymHeld (s.symHeld && !touchesSymKey s.cfg kc)) := by
  obtain ⟨p, q⟩ := kc
  unfold releaseKey breakItems touchesSymKey onlyIf
  by_cases hp : p = 0x00#8 <;> by_cases hq : q = 0x00#8 <;>
    simp [hp, hq, releaseOne_eq, symAfter_eq, afterItems_append, afterItems_setSymHeld] <;>
    (congr 1; cases s.symHeld <;> cases isSymKey s.cfg p <;> cases isSymKey s.cfg q <;> rfl)

end Sys2Proof.Machine
end

