-- ==== Sys2Proof/Laws/Translator.lean ====
section
/-! SUPPORT. Everything an operation of the translator, the driver or the player can do to the state, said once
(`Translates`), and when `Decode` and a playback go on to a next state. -/

namespace Sys2Proof.Machine

/-- What every operation outside the decoder and boot keeps, and how it moves the bus: the configuration, the decoder
registers, `busy`, the input pins and the queue stay; both traces grow by the same items; the array is their fold; the
strobe and the reset line stay or end de-asserted. -/
structure Translates (s t : State) : Prop where
  cfg : t.cfg = s.cfg
  decoder : decoderRegs t = decoderRegs s
  busy : t.busy = s.busy
  ps2Clk : t.ps2Clk = s.ps2Clk
  ps2Dat : t.ps2Dat = s.ps2Dat
  inputs : t.inputs = s.inputs
  bus : ∃ new : List TraceItem, t.trace = s.trace ++ new ∧ t.sw = applyTrace s.sw new ∧
    t.pinTrace = s.pinTrace ++ new.flatMap (pinsOf s.cfg)
  strobe : t.strobe = s.strobe ∨ t.strobe = s.cfg.strobeActive.inv
  resetLine : t.resetLine = s.resetLine ∨ t.resetLine = s.cfg.resetActive.inv

theorem Translates.refl (s : State) : Translates s s :=
  ⟨rfl, rfl, rfl, rfl, rfl, rfl, ⟨[], by simp⟩, .inl rfl, .inl rfl⟩

theorem Translates.trans {s t u : State} (h : Translates s t) (k : Translates t u) : Translates s u where
  cfg := k.cfg.trans h.cfg
  decoder := k.decoder.trans h.decoder
  busy := k.busy.trans h.busy
  ps2Clk := k.ps2Clk.trans h.ps2Clk
  ps2Dat := k.ps2Dat.trans h.ps2Dat
  inputs := k.inputs.trans h.inputs
  bus := by
    obtain ⟨xs, h1, h2, h3⟩ := h.bus
    obtain ⟨ys, k1, k2, k3⟩ := k.bus
    refine ⟨xs ++ ys, by simp [k1, h1], by rw [k2, h2, applyTrace_append], ?_⟩
    simp [k3, h3, h.cfg]
  strobe := by
    rcases k.strobe with k | k
    · rw [k]; exact h.strobe
    · right; rw [k, h.cfg]
  resetLine := by
    rcases k.resetLine with k | k
    · rw [k]; exact h.resetLine
    · right; rw [k, h.cfg]

/-- A write of a register that is not in `Translates`. -/
theorem Translates.of_regs {s t : State} (cfg : t.cfg = s.cfg) (decoder : decoderRegs t = decoderRegs s)
    (busy : t.busy = s.busy) (pins : t.ps2Clk = s.ps2Clk ∧ t.ps2Dat = s.ps2Dat ∧ t.inputs = s.inputs)
    (out : t.trace = s.trace ∧ t.sw = s.sw ∧ t.pinTrace = s.pinTrace ∧ t.strobe = s.strobe ∧ t.resetLine = s.resetLine) :
    Translates s t :=
  ⟨cfg, decoder, busy, pins.1, pins.2.1, pins.2.2, ⟨[], by simp [out]⟩, .inl out.2.2.2.1, .inl out.2.2.2.2⟩

theorem translates_afterItem (s : State) (x : TraceItem) : Translates s (afterItem s x) := by
  refine ⟨rfl, rfl, rfl, rfl, rfl, rfl, ⟨[x], by simp⟩, ?_, ?_⟩ <;> cases x <;> simp [afterItem]

theorem translates_afterItems (s : State) (xs : List TraceItem) : Translates s (afterItems xs s) := by
  induction xs generalizing s with
  | nil => exact .refl s
  | cons x xs ih => exact (translates_afterItem s x).trans (ih _)

/-! ### The operations that always go on -/

theorem clearLatches_translates (s : State) : Translates s (clearLatches s) :=
  .of_regs rfl rfl rfl ⟨rfl, rfl, rfl⟩ ⟨rfl, rfl, rfl, rfl, rfl⟩

theorem raiseDesync_translates (cause : Cause) (s : State) : Translates s (raiseDesync cause s) := by
  rw [raiseDesync_eq]
  exact (clearLatches_translates s).trans (translates_afterItem _ _)

theorem rightShift_translates (held : Bool) (ts : TransitionState) (s : State) : Translates s (rightShift held ts s) := by
  unfold rightShift onlyIf
  split <;> exact .of_regs rfl rfl rfl ⟨rfl, rfl, rfl⟩ ⟨rfl, rfl, rfl, rfl, rfl⟩

theorem resolve_translates (code : Byte) (rel : Bool) (s : State) : Translates s (resolve code rel s).2 := by
  rw [resolve_eq]; exact .of_regs rfl rfl rfl ⟨rfl, rfl, rfl⟩ ⟨rfl, rfl, rfl, rfl, rfl⟩

theorem setSymHeld_translates (v : Bool) (s : State) : Translates s (s.setSymHeld v) :=
  .of_regs rfl rfl rfl ⟨rfl, rfl, rfl⟩ ⟨rfl, rfl, rfl, rfl, rfl⟩

theorem setTs_translates (v : TransitionState) (s : State) : Translates s (s.setTs v) :=
  .of_regs rfl rfl rfl ⟨rfl, rfl, rfl⟩ ⟨rfl, rfl, rfl, rfl, rfl⟩

theorem setLastCode_translates (v : Byte) (s : State) : Translates s (s.setLastCode v) :=
  .of_regs rfl rfl rfl ⟨rfl, rfl, rfl⟩ ⟨rfl, rfl, rfl, rfl, rfl⟩

theorem setExt_translates (v : Bool) (s : State) : Translates s (s.setExt v) :=
  .of_regs rfl rfl rfl ⟨rfl, rfl, rfl⟩ ⟨rfl, rfl, rfl, rfl, rfl⟩

theorem setIrqEn_translates (v : Bool) (s : State) : Translates s (s.setIrqEn v) :=
  .of_regs rfl rfl rfl ⟨rfl, rfl, rfl⟩ ⟨rfl, rfl, rfl, rfl, rfl⟩

theorem assertKey_translates (kc : KeyCode) (s : State) : Translates s (assertKey kc s) := by
  rw [assertKey_eq]; exact (setSymHeld_translates _ s).trans (translates_afterItems _ _)

theorem releaseKey_translates (kc : KeyCode) (s : State) : Translates s (releaseKey kc s) := by
  rw [releaseKey_eq]; exact (setSymHeld_translates _ s).trans (translates_afterItems _ _)

/-- An outcome that goes on, to a state the operation may reach, with the interrupt enable as it was. -/
def Completes (s : State) (o : Outcome) : Prop := ∃ t, o = .next t ∧ Translates s t ∧ t.irqEn = s.irqEn

theorem execPfxE0_completes (s : State) : Completes s (execPfxE0 s) :=
  ⟨_, rfl, (setLastCode_translates _ s).trans (setExt_translates _ _), rfl⟩

theorem execPfxE0Dup_completes (s : State) : Completes s (execPfxE0Dup s) :=
  ⟨_, rfl, (setLastCode_translates _ s).trans (raiseDesync_translates _ _), by rw [raiseDesync_eq]; rfl⟩

theorem execPfxF0_completes (s : State) : Completes s (execPfxF0 s) :=
  ⟨_, rfl, (setLastCode_translates _ s).trans (setTs_translates _ _), rfl⟩

theorem rightShift_irqEn (held : Bool) (ts : TransitionState) (s : State) : (rightShift held ts s).irqEn = s.irqEn := by
  unfold rightShift onlyIf; split <;> rfl

theorem execRshiftMake_completes (s : State) : Completes s (execRshiftMake s) :=
  ⟨_, rfl, (setLastCode_translates _ s).trans (rightShift_translates _ _ _), rightShift_irqEn _ _ _⟩

theorem execRshiftBreak_completes (s : State) : Completes s (execRshiftBreak s) :=
  ⟨_, rfl, (setLastCode_translates _ s).trans (rightShift_translates _ _ _), rightShift_irqEn _ _ _⟩

theorem execKeyMake_completes (code : Byte) (s : State) : Completes s (execKeyMake code s) :=
  ⟨_, rfl, (setLastCode_translates _ s).trans <| (resolve_translates _ _ _).trans <| (assertKey_translates _ _).trans
    (setTs_translates _ _), by simp [assertKey_eq, resolve_eq]⟩

theorem execKeyBreak_completes (code : Byte) (s : State) : Completes s (execKeyBreak code s) :=
  ⟨_, rfl, (setLastCode_translates _ s).trans <| (resolve_translates _ _ _).trans <| (releaseKey_translates _ _).trans
    (setTs_translates _ _), by simp [releaseKey_eq, resolve_eq]⟩

theorem execBadCode_completes (code : Byte) (s : State) : Completes s (execBadCode code s) :=
  ⟨_, rfl, (setLastCode_translates _ s).trans (raiseDesync_translates _ _), by rw [raiseDesync_eq]; rfl⟩

/-! ### `Decode` inside a playback, and the playback -/

/-- The class of a byte that is a trigger but no prefix. -/
theorem classify_trigger_iff (sel : Selector) (code : Byte) :
    classify sel code = .trigger ↔ code ≠ 0xE0#8 ∧ code ≠ 0xF0#8 ∧ isTrigger sel.cfg code = true := by
  unfold classify
  by_cases h1 : code = 0xE0#8
  · simp [h1]; split <;> simp
  · by_cases h2 : code = 0xF0#8
    · simp [h2]
    · by_cases h3 : isTrigger sel.cfg code = true
      · simp [h1, h2, h3]
      · simp only [h1, h2, h3, if_false]
        by_cases h4 : code = sel.cfg.rshiftCode
        · simp [h4]; split <;> simp
        · simp only [h4, if_false]
          by_cases h5 : inKeyRange sel.cfg code = true
          · simp [h5]; split <;> simp
          · simp [h5]

/-- `Decode` in a playback completes, or the byte is a trigger and it is refused. -/
theorem decodeInPlay_cases (code : Byte) (s : State) :
    (classify s.selector code = .trigger ∧ decodeInPlay code s = .refused .recursivePlayback) ∨
    (classify s.selector code ≠ .trigger ∧ Completes s (decodeInPlay code s)) := by
  unfold decodeInPlay
  cases h : classify s.selector code
  · exact .inr ⟨by simp, execPfxE0_completes s⟩
  · exact .inr ⟨by simp, execPfxE0Dup_completes s⟩
  · exact .inr ⟨by simp, execPfxF0_completes s⟩
  · exact .inl ⟨rfl, rfl⟩
  · exact .inr ⟨by simp, execRshiftMake_completes s⟩
  · exact .inr ⟨by simp, execRshiftBreak_completes s⟩
  · exact .inr ⟨by simp, execKeyMake_completes code s⟩
  · exact .inr ⟨by simp, execKeyBreak_completes code s⟩
  · exact .inr ⟨by simp, execBadCode_completes code s⟩

/-- A byte that is no trigger is decoded to a next state inside a playback. -/
theorem decodeInPlay_completes {code : Byte} {s : State} (h : isTrigger s.cfg code = false) :
    Completes s (decodeInPlay code s) := by
  rcases decodeInPlay_cases code s with ⟨hc, -⟩ | ⟨-, h⟩
  · have := ((classify_trigger_iff _ _).mp hc).2.2
    simp [State.selector, h] at this
  · exact h

theorem decodeInPlay_F0 (s : State) : decodeInPlay 0xF0#8 s = execPfxF0 s := by
  unfold decodeInPlay classify; simp

theorem andThen_next (s : State) (f : State → Outcome) : andThen (.next s) f = f s := rfl

theorem andThen_eq_next {o : Outcome} {f : State → Outcome} {t : State} :
    andThen o f = .next t ↔ ∃ u, o = .next u ∧ f u = .next t := by
  cases o <;> simp [andThen]

/-- Two completing operations in sequence complete. -/
theorem Completes.andThen {s : State} {o : Outcome} {f : State → Outcome} (h : Completes s o)
    (k : ∀ t, Translates s t → Completes t (f t)) : Completes s (Machine.andThen o f) := by
  obtain ⟨t, rfl, ht, hi⟩ := h
  obtain ⟨u, hu, htu, hiu⟩ := k t ht
  exact ⟨u, hu, ht.trans htu, hiu.trans hi⟩

theorem delay_completes (t : Duration) (s : State) : Completes s (.next (delay t s)) :=
  ⟨_, rfl, by rw [delay_eq]; exact translates_afterItem _ _, rfl⟩

/-- One entry of a playback completes when it is no trigger. -/
theorem playEntry_completes {c : Byte} {s : State} (h : isTrigger s.cfg c = false) : Completes s (playEntry c s) := by
  refine (decodeInPlay_completes h).andThen fun t ht => ?_
  have hd : Translates t (delay .tMacroDwell t) := by rw [delay_eq]; exact translates_afterItem _ _
  rw [decodeInPlay_F0]
  obtain ⟨v, hv, htv, hiv⟩ := execPfxF0_completes (delay .tMacroDwell t)
  refine Completes.andThen ⟨v, hv, hd.trans htv, hiv⟩ fun u hu => ?_
  refine (decodeInPlay_completes (by rw [hu.cfg, ht.cfg, h])).andThen fun w hw => ?_
  refine (decodeInPlay_completes (by rw [hw.cfg, hu.cfg, ht.cfg, h])).andThen fun x _ => ?_
  exact delay_completes _ _

/-- The loop of a playback completes when no entry is a trigger. -/
theorem playEntries_completes {cs : List Byte} {s : State} (h : ∀ c ∈ cs, isTrigger s.cfg c = false) :
    Completes s (playEntries cs s) := by
  induction cs generalizing s with
  | nil => exact ⟨s, rfl, .refl s, rfl⟩
  | cons c cs ih =>
    refine (playEntry_completes (h c (by simp))).andThen fun t ht => ih fun d hd => ?_
    rw [ht.cfg]; exact h d (by simp [hd])

/-- An entry goes on only by `Translates` and with the interrupt enable kept. -/
theorem playEntry_spec {c : Byte} {s t : State} (h : playEntry c s = .next t) : Translates s t ∧ t.irqEn = s.irqEn := by
  rcases decodeInPlay_cases c s with ⟨-, hr⟩ | ⟨hc, -⟩
  · simp [playEntry, hr, andThen] at h
  · by_cases htr : isTrigger s.cfg c = true
    · have hp : c = 0xE0#8 ∨ c = 0xF0#8 := by
        by_contra hne
        rw [not_or] at hne
        exact hc ((classify_trigger_iff _ _).mpr ⟨hne.1, hne.2, htr⟩)
      have hall : ∀ u, Completes u (decodeInPlay c u) := fun u => by
        rcases decodeInPlay_cases c u with ⟨hcu, -⟩ | ⟨-, h⟩
        · have := (classify_trigger_iff _ _).mp hcu
          rcases hp with rfl | rfl <;> simp at this
        · exact h
      have : Completes s (playEntry c s) := by
        refine (hall s).andThen fun t _ => ?_
        have hd : Translates t (delay .tMacroDwell t) := by rw [delay_eq]; exact translates_afterItem _ _
        rw [decodeInPlay_F0]
        obtain ⟨v, hv, htv, hiv⟩ := execPfxF0_completes (delay .tMacroDwell t)
        exact Completes.andThen ⟨v, hv, hd.trans htv, hiv⟩ fun u _ =>
          (hall u).andThen fun w _ => (hall w).andThen fun x _ => delay_completes _ _
      obtain ⟨u, hu, h1, h2⟩ := this
      rw [h] at hu; cases hu; exact ⟨h1, h2⟩
    · obtain ⟨u, hu, h1, h2⟩ := playEntry_completes (c := c) (s := s) (by simpa using htr)
      rw [h] at hu; cases hu; exact ⟨h1, h2⟩

theorem playEntries_spec {cs : List Byte} {s t : State} (h : playEntries cs s = .next t) :
    Translates s t ∧ t.irqEn = s.irqEn := by
  induction cs generalizing s with
  | nil => cases h; exact ⟨.refl _, rfl⟩
  | cons c cs ih =>
    obtain ⟨u, hu, ht⟩ := andThen_eq_next.mp h
    obtain ⟨h1, h2⟩ := playEntry_spec hu
    obtain ⟨k1, k2⟩ := ih ht
    exact ⟨h1.trans k1, k2.trans h2⟩

/-- The loop of a playback is the left fold of its entries. -/
theorem playEntries_foldl (cs : List Byte) (o : Outcome) :
    cs.foldl (fun o c => andThen o (playEntry c)) o = andThen o (playEntries cs) := by
  induction cs generalizing o with
  | nil => cases o <;> rfl
  | cons c cs ih => rw [List.foldl_cons, ih]; cases o <;> rfl

/-- A playback that goes on keeps what `Translates` says and leaves the interrupt enabled (R161). -/
theorem play_spec {seq : List Byte} {s t : State} (h : play seq s = .next t) : Translates s t ∧ t.irqEn = true := by
  unfold play at h
  split at h
  · obtain ⟨u, hu, ht⟩ := andThen_eq_next.mp h
    cases ht
    exact ⟨((setIrqEn_translates false s).trans (playEntries_spec hu).1).trans (setIrqEn_translates true u), rfl⟩
  · cases h

/-- A playback completes when the sequence is terminated and no entry is a trigger. -/
theorem play_completes {seq : List Byte} {s : State} (ht : seqTerminated seq = true)
    (h : ∀ c ∈ seqEntries seq, isTrigger s.cfg c = false) : ∃ t, play seq s = .next t := by
  obtain ⟨u, hu, -⟩ := playEntries_completes (cs := seqEntries seq) (s := s.setIrqEn false) h
  exact ⟨u.setIrqEn true, by simp only [play, ht, if_true, hu, andThen_next]⟩

/-! ### `Decode` -/

/-- The entry of a trigger is in `MACROS` (R106). -/
theorem macroFor_mem {c : Config} {code : Byte} {m : MacroEntry} (h : macroFor c code = some m) :
    m ∈ c.macros ∧ m.trigger = code :=
  ⟨List.mem_of_find?_eq_some h, by simpa using List.find?_some h⟩

/-- What a legal configuration says of its macros (00_scope.md R5). -/
theorem Config.wf_macro {c : Config} (h : c.wf = true) {m : MacroEntry} (hm : m ∈ c.macros) : c.seqOk m.seq = true := by
  have hmac : c.macrosOk = true := by simp only [Config.wf, Bool.and_eq_true] at h; exact h.1.1.2
  simp only [Config.macrosOk, Bool.and_eq_true, List.all_eq_true] at hmac
  exact (hmac.2 m hm).2

/-- A sequence can be played exactly when it is terminated and holds no trigger (R161, R164). -/
theorem Config.playOk_iff {c : Config} {seq : List Byte} :
    c.playOk seq = true ↔ seqTerminated seq = true ∧ ∀ e ∈ seqEntries seq, isTrigger c e = false := by
  simp only [Config.playOk, Bool.and_eq_true, List.all_eq_true, Bool.not_eq_true']

/-- A sequence of a legal configuration can be played (R5). -/
theorem Config.playOk_of_seqOk {c : Config} {seq : List Byte} (h : c.seqOk seq = true) : c.playOk seq = true := by
  simp only [Config.seqOk, Bool.and_eq_true] at h
  exact h.2

/-- What a MACRO can do when it goes on. -/
theorem execMacroTrigger_spec {code : Byte} {s t : State} (h : execMacroTrigger code s = .next t) :
    Translates s t ∧ t.irqEn = true := by
  unfold execMacroTrigger at h
  split at h
  · obtain ⟨h1, h2⟩ := play_spec h
    exact ⟨(setLastCode_translates code s).trans h1, h2⟩
  · cases h

/-- A MACRO completes under a legal configuration when its code is a trigger. -/
theorem execMacroTrigger_completes {code : Byte} {s : State} (hc : s.cfg.wf = true) (h : isTrigger s.cfg code = true) :
    ∃ t, execMacroTrigger code s = .next t := by
  obtain ⟨m, hm⟩ := Option.isSome_iff_exists.mp h
  obtain ⟨ht, he⟩ := Config.playOk_iff.mp (Config.playOk_of_seqOk (Config.wf_macro hc (macroFor_mem hm).1))
  obtain ⟨t, h⟩ := play_completes (s := s.setLastCode code) ht he
  exact ⟨t, by simp only [execMacroTrigger, hm, h]⟩

/-- `Decode` is MACRO on a trigger, and what a playback's `Decode` does on every other byte. -/
theorem decodeCode_cases (code : Byte) (s : State) :
    (classify s.selector code = .trigger ∧ decodeCode code s = execMacroTrigger code s) ∨
    (classify s.selector code ≠ .trigger ∧ decodeCode code s = decodeInPlay code s ∧
      Completes s (decodeInPlay code s)) := by
  by_cases h : classify s.selector code = .trigger
  · exact .inl ⟨h, by simp only [decodeCode, h]⟩
  · refine .inr ⟨h, ?_, ?_⟩
    · unfold decodeCode decodeInPlay; cases hc : classify s.selector code <;> simp_all
    · rcases decodeInPlay_cases code s with ⟨hc, -⟩ | ⟨-, h⟩
      · exact absurd hc h
      · exact h

/-- What `Decode` can do when it goes on. -/
theorem decodeCode_spec {code : Byte} {s t : State} (h : decodeCode code s = .next t) :
    Translates s t ∧ (t.irqEn = s.irqEn ∨ t.irqEn = true) := by
  rcases decodeCode_cases code s with ⟨-, he⟩ | ⟨-, he, u, hu, h1, h2⟩
  · rw [he] at h
    obtain ⟨h1, h2⟩ := execMacroTrigger_spec h
    exact ⟨h1, .inr h2⟩
  · rw [he, hu] at h; cases h; exact ⟨h1, .inl h2⟩

/-- `Decode` completes under a legal configuration. -/
theorem decodeCode_completes (code : Byte) {s : State} (hc : s.cfg.wf = true) : ∃ t, decodeCode code s = .next t := by
  rcases decodeCode_cases code s with ⟨ht, he⟩ | ⟨-, he, u, hu, -⟩
  · rw [he]; exact execMacroTrigger_completes hc ((classify_trigger_iff _ _).mp ht).2.2
  · exact ⟨u, by rw [he, hu]⟩

/-! ### The single encoding -/

theorem execKeyEnc_spec {enc : Byte} {s t : State} (h : execKeyEnc enc s = .next t) :
    Translates s t ∧ t.irqEn = s.irqEn := by
  unfold execKeyEnc at h
  split at h
  · cases h
  · split at h
    · cases h; exact ⟨.refl s, rfl⟩
    · split at h <;> cases h
      · rw [releaseOne_eq, symAfter_eq]
        exact ⟨(setSymHeld_translates _ s).trans (translates_afterItems _ _), by simp⟩
      · rw [assertOne_eq, symAfter_eq]
        exact ⟨(setSymHeld_translates _ s).trans (translates_afterItems _ _), by simp⟩

end Sys2Proof.Machine
end

