-- ==== Sys2Proof/Laws/Decoder.lean ====
section
/-! SUPPORT. What the frame decoder can do: the half-cell operations, the delivery of an edge, and a frame. -/

namespace Sys2Proof.Machine

/-- What every operation but boot keeps: the configuration and the queue; both traces grow by the same items, the array
is their fold, and the strobe and the reset line stay or end de-asserted. -/
structure Moves (s t : State) : Prop where
  cfg : t.cfg = s.cfg
  inputs : t.inputs = s.inputs
  bus : ∃ new : List TraceItem, t.trace = s.trace ++ new ∧ t.sw = applyTrace s.sw new ∧
    t.pinTrace = s.pinTrace ++ new.flatMap (pinsOf s.cfg)
  strobe : t.strobe = s.strobe ∨ t.strobe = s.cfg.strobeActive.inv
  resetLine : t.resetLine = s.resetLine ∨ t.resetLine = s.cfg.resetActive.inv

theorem Translates.moves {s t : State} (h : Translates s t) : Moves s t := ⟨h.cfg, h.inputs, h.bus, h.strobe, h.resetLine⟩

theorem Moves.refl (s : State) : Moves s s := (Translates.refl s).moves

theorem Moves.trans {s t u : State} (h : Moves s t) (k : Moves t u) : Moves s u where
  cfg := k.cfg.trans h.cfg
  inputs := k.inputs.trans h.inputs
  bus := by
    obtain ⟨xs, h1, h2, h3⟩ := h.bus
    obtain ⟨ys, k1, k2, k3⟩ := k.bus
    refine ⟨xs ++ ys, by simp [k1, h1], by rw [k2, h2, applyTrace_append], ?_⟩
    simp [k3, h3, h.cfg]
  strobe := by
    rcases k.strobe with k | k
    · rw [k]; exact h.strobe
    · right; rw [k, h.cfg]
  resetLine := by
    rcases k.resetLine with k | k
    · rw [k]; exact h.resetLine
    · right; rw [k, h.cfg]

/-- A write of registers that are not in `Moves`. -/
theorem Moves.of_regs {s t : State} (cfg : t.cfg = s.cfg) (inputs : t.inputs = s.inputs)
    (out : t.trace = s.trace ∧ t.sw = s.sw ∧ t.pinTrace = s.pinTrace ∧ t.strobe = s.strobe ∧ t.resetLine = s.resetLine) :
    Moves s t :=
  ⟨cfg, inputs, ⟨[], by simp [out]⟩, .inl out.2.2.2.1, .inl out.2.2.2.2⟩

/-! ### The half-cell operations -/

/-- EDGE.F in one equation (R82). -/
theorem execEdgeF_eq (d : Level) (s : State) :
    execEdgeF d s = .next { s with acc := if inWindow s.bitCount then shiftIn s.acc d else s.acc
                                   edgePhase := .rising
                                   busy := false } := by
  unfold execEdgeF onlyIf
  cases h : inWindow s.bitCount <;> simp [h, State.setBusy, State.setAcc, State.setEdgePhase]

/-- EDGE.R in one equation (R83). -/
theorem execEdgeR_eq (d : Level) (s : State) :
    execEdgeR d s = .next { s with bitCount := s.bitCount - 1#4, edgePhase := .falling, busy := false } := rfl

/-- The state EDGE.R.DONE hands the byte over in (R84). -/
def rearmed (s : State) : State := { s with bitCount := armedCount, edgePhase := .falling, busy := true }

/-- EDGE.R.DONE in one equation (R84). -/
theorem execEdgeRDone_eq (d : Level) (s : State) :
    execEdgeRDone d s =
      andThen (decodeCode s.acc (rearmed s)) fun t => .next { t with acc := 0x00#8, busy := false } := rfl

/-- What EDGE.R.DONE can do when it goes on. -/
theorem execEdgeRDone_spec {d : Level} {s t : State} (h : execEdgeRDone d s = .next t) :
    Moves s t ∧ decoderRegs t = (.falling, armedCount, 0x00#8) ∧ t.busy = false ∧
      (t.irqEn = s.irqEn ∨ t.irqEn = true) := by
  rw [execEdgeRDone_eq] at h
  obtain ⟨u, hu, ht⟩ := andThen_eq_next.mp h
  obtain ⟨h1, h2⟩ := decodeCode_spec hu
  cases ht
  have hd := h1.decoder
  simp only [decoderRegs, Prod.mk.injEq] at hd
  refine ⟨((Moves.of_regs (s := s) (t := rearmed s) rfl rfl ⟨rfl, rfl, rfl, rfl, rfl⟩).trans h1.moves).trans
    (.of_regs rfl rfl ⟨rfl, rfl, rfl, rfl, rfl⟩), ?_, rfl, h2⟩
  simp [decoderRegs, hd, rearmed]

/-- EDGE.R.DONE completes under a legal configuration. -/
theorem execEdgeRDone_completes (d : Level) {s : State} (hc : s.cfg.wf = true) : ∃ t, execEdgeRDone d s = .next t := by
  obtain ⟨u, hu⟩ := decodeCode_completes s.acc (s := rearmed s) hc
  exact ⟨_, by rw [execEdgeRDone_eq, hu, andThen_next]⟩

/-! ### The decoder step -/

/-- A position 1..11 and a decoder position in it is kept by the half-cell operations (10_state.md R12). -/
theorem positionOk_iff (n : BitVec 4) : positionOk n = true ↔ 1 ≤ n.toNat ∧ n.toNat ≤ 11 := by
  unfold positionOk armedCount
  simp [BitVec.le_def]

/-- The count after EDGE.R (R83): "the result is never 0 because bitCount >= 2". -/
theorem toNat_sub_one {n : BitVec 4} (h : 2 ≤ n.toNat) : (n - 1#4).toNat = n.toNat - 1 := by
  rw [BitVec.toNat_sub_of_le (by simp [BitVec.le_def]; omega)]; rfl

/-- What the selection of a half-cell operation says of the position (R85). -/
theorem selectEdge_spec {sel : Selector} {op : EdgeOp} (h : selectEdge sel = some op) :
    positionOk sel.bitCount = true ∧
      (match op with
       | .f => sel.edgePhase = .falling
       | .r => sel.edgePhase = .rising ∧ 2#4 ≤ sel.bitCount
       | .rDone => sel.edgePhase = .rising ∧ sel.bitCount = 1#4) := by
  unfold selectEdge at h
  by_cases hp : positionOk sel.bitCount = true
  · simp only [hp, Bool.not_true, Bool.false_eq_true, if_false] at h
    cases he : sel.edgePhase with
    | falling => rw [he] at h; cases h; exact ⟨hp, rfl⟩
    | rising =>
      rw [he] at h
      by_cases h2 : 2#4 ≤ sel.bitCount
      · simp only [h2, if_true] at h; cases h; exact ⟨hp, rfl, h2⟩
      · simp only [h2, if_false] at h; cases h
        refine ⟨hp, rfl, BitVec.eq_of_toNat_eq ?_⟩
        have := (positionOk_iff _).mp hp
        simp [BitVec.le_def] at h2 ⊢
        omega
  · simp [hp] at h

/-- A position in 1..11 selects an operation. -/
theorem selectEdge_some {sel : Selector} (h : positionOk sel.bitCount = true) : ∃ op, selectEdge sel = some op := by
  unfold selectEdge
  simp only [h, Bool.not_true, Bool.false_eq_true, if_false]
  cases sel.edgePhase with
  | falling => exact ⟨_, rfl⟩
  | rising => by_cases h2 : 2#4 ≤ sel.bitCount <;> simp [h2]

/-- What is kept by a decoder step that goes on: the position stays legal, and `busy` ends false. -/
theorem decoderStep_spec {d : Level} {s t : State} (h : decoderStep d s = .next t) :
    Moves s t ∧ positionOk t.bitCount = true ∧ t.busy = false ∧ (t.irqEn = s.irqEn ∨ t.irqEn = true) := by
  unfold decoderStep at h
  cases hs : selectEdge s.selector with
  | none => rw [hs] at h; cases h
  | some op =>
    rw [hs] at h
    obtain ⟨hp, hop⟩ := selectEdge_spec hs
    cases op with
    | f =>
      simp only [execEdgeF_eq] at h
      cases h
      exact ⟨.of_regs rfl rfl ⟨rfl, rfl, rfl, rfl, rfl⟩, hp, rfl, .inl rfl⟩
    | r =>
      simp only [execEdgeR_eq] at h
      cases h
      refine ⟨.of_regs rfl rfl ⟨rfl, rfl, rfl, rfl, rfl⟩, ?_, rfl, .inl rfl⟩
      have h2 : 2#4 ≤ s.bitCount := hop.2
      have hle : s.bitCount.toNat ≤ 11 := ((positionOk_iff _).mp hp).2
      have hge : 2 ≤ s.bitCount.toNat := by simpa [BitVec.le_def] using h2
      rw [positionOk_iff]
      show 1 ≤ (s.bitCount - 1#4).toNat ∧ (s.bitCount - 1#4).toNat ≤ 11
      rw [toNat_sub_one hge]
      omega
    | rDone =>
      obtain ⟨h1, h2, h3, h4⟩ := execEdgeRDone_spec h
      simp only [decoderRegs, Prod.mk.injEq] at h2
      exact ⟨h1, by rw [h2.2.1]; decide, h3, h4⟩

/-- A decoder step completes from a legal position under a legal configuration. -/
theorem decoderStep_completes (d : Level) {s : State} (hc : s.cfg.wf = true) (hp : positionOk s.bitCount = true) :
    ∃ t, decoderStep d s = .next t := by
  obtain ⟨op, hop⟩ := selectEdge_some (sel := s.selector) hp
  unfold decoderStep
  rw [hop]
  cases op with
  | f => exact ⟨_, execEdgeF_eq d s⟩
  | r => exact ⟨_, execEdgeR_eq d s⟩
  | rDone => exact execEdgeRDone_completes d hc

/-! ### Delivery and frames -/

theorem movePins_moves (pol : Polarity) (d : Level) (s : State) : Moves s (movePins pol d s) :=
  .of_regs rfl rfl ⟨rfl, rfl, rfl, rfl, rfl⟩

/-- An edge that goes on: the position stays legal, and `busy` stays false. -/
theorem deliverEdge_spec {pol : Polarity} {d : Level} {s t : State} (h : deliverEdge pol d s = .next t) :
    Moves s t ∧ (positionOk s.bitCount = true → positionOk t.bitCount = true) ∧ (s.busy = false → t.busy = false) ∧
      (t.irqEn = s.irqEn ∨ t.irqEn = true) := by
  unfold deliverEdge at h
  simp only at h
  split at h
  · obtain ⟨h1, h2, h3, h4⟩ := decoderStep_spec h
    exact ⟨(movePins_moves pol d s).trans h1, fun _ => h2, fun _ => h3, h4⟩
  · cases h
    exact ⟨movePins_moves pol d s, id, id, .inl rfl⟩

theorem deliverEdge_completes (pol : Polarity) (d : Level) {s : State} (hc : s.cfg.wf = true)
    (hp : positionOk s.bitCount = true) : ∃ t, deliverEdge pol d s = .next t := by
  unfold deliverEdge
  simp only
  split
  · exact decoderStep_completes d hc hp
  · exact ⟨_, rfl⟩

theorem deliverCells_spec {ds : List Level} {s t : State} (h : deliverCells ds s = .next t) :
    Moves s t ∧ (positionOk s.bitCount = true → positionOk t.bitCount = true) ∧ (s.busy = false → t.busy = false) ∧
      (t.irqEn = s.irqEn ∨ t.irqEn = true) := by
  induction ds generalizing s with
  | nil => cases h; exact ⟨.refl _, id, id, .inl rfl⟩
  | cons d ds ih =>
    obtain ⟨u, hu, h⟩ := andThen_eq_next.mp h
    obtain ⟨v, hv, h⟩ := andThen_eq_next.mp h
    obtain ⟨a1, a2, a3, a4⟩ := deliverEdge_spec hu
    obtain ⟨b1, b2, b3, b4⟩ := deliverEdge_spec hv
    obtain ⟨c1, c2, c3, c4⟩ := ih h
    refine ⟨(a1.trans b1).trans c1, c2 ∘ b2 ∘ a2, c3 ∘ b3 ∘ a3, ?_⟩
    rcases c4 with c | c
    · rcases b4 with b | b
      · rcases a4 with a | a
        · exact .inl (by rw [c, b, a])
        · exact .inr (by rw [c, b, a])
      · exact .inr (by rw [c, b])
    · exact .inr c

theorem deliverCells_completes (ds : List Level) {s : State} (hc : s.cfg.wf = true) (hp : positionOk s.bitCount = true) :
    ∃ t, deliverCells ds s = .next t := by
  induction ds generalizing s with
  | nil => exact ⟨s, rfl⟩
  | cons d ds ih =>
    obtain ⟨u, hu⟩ := deliverEdge_completes .fall d hc hp
    obtain ⟨a1, a2, -, -⟩ := deliverEdge_spec hu
    obtain ⟨v, hv⟩ := deliverEdge_completes .rise d (s := u) (by rw [a1.cfg, hc]) (a2 hp)
    obtain ⟨b1, b2, -, -⟩ := deliverEdge_spec hv
    obtain ⟨t, ht⟩ := ih (s := v) (by rw [b1.cfg, a1.cfg, hc]) (b2 (a2 hp))
    exact ⟨t, by simp only [deliverCells, hu, hv, ht, andThen_next]⟩

end Sys2Proof.Machine
end

