-- ==== Sys2Proof/Laws/PerInstr.lean ====
section
/-! SUPPORT. The family Encoding: every instruction that is well formed in a position is read back by the decoder from
its encoding; one lemma per constructor. -/

namespace Sys2Proof.Laws.Encoding

/-- The decoder reads a well-formed instruction back from its item. -/
def Statement (i : Instr) : Prop := ∀ sel : Selector, i.wf sel = true → decode sel (encode sel.cfg i) = .ok i

theorem frame (cells : BitVec 11) : Statement (.frame cells) := by
  intro sel _
  have h1 : (BitVec.zeroExtend 8 (cells.extractLsb' 8 3)).extractLsb' 3 5 = 0#5 := by
    ext i hi; simp
  have h2 : (BitVec.zeroExtend 8 (cells.extractLsb' 8 3)).extractLsb' 0 3 ++ cells.extractLsb' 0 8 = cells := by
    apply BitVec.eq_of_getLsbD_eq
    intro i hi
    simp only [BitVec.getLsbD_append, BitVec.getLsbD_extractLsb', BitVec.truncate_eq_setWidth, BitVec.getLsbD_setWidth]
    by_cases h8 : i < 8
    · simp [h8]
    · obtain rfl | rfl | rfl : i = 8 ∨ i = 9 ∨ i = 10 := by omega
      all_goals simp
  simp [encode, decode, decodeFrame, h1, h2]

theorem keyEnc (enc : Byte) : Statement (.keyEnc enc) := by
  intro sel h
  simp only [Instr.wf, Bool.or_eq_true, Bool.not_eq_true'] at h
  rcases h with h | h <;> simp [encode, decode, decodeKeyEnc, h]

theorem edgeByte_clean (d : Level) : hasStrayEdgeBits (edgeByte d) = false := by cases d <;> decide

theorem edgeByte_level (d : Level) : Level.ofBool ((edgeByte d).getLsbD 0) = d := by cases d <;> decide

theorem edge_of_select {sel : Selector} {op : EdgeOp} (d : Level) (pol : Polarity) (h : selectEdge sel = some op) :
    decode sel ⟨.edge pol, [edgeByte d]⟩ = .ok (op.instr d) := by
  simp only [decode, decodeEdge, edgeByte_clean, h, edgeByte_level, Bool.false_eq_true, if_false]

theorem edgeF (d : Level) : Statement (.edgeF d) := fun _ h => edge_of_select d .fall (by simpa [Instr.wf] using h)

theorem edgeR (d : Level) : Statement (.edgeR d) := fun _ h => edge_of_select d .rise (by simpa [Instr.wf] using h)

theorem edgeRDone (d : Level) : Statement (.edgeRDone d) :=
  fun _ h => edge_of_select d .rise (by simpa [Instr.wf] using h)

theorem code_of_class {sel : Selector} {k : CodeClass} (code : Byte) (h : classify sel code = k) :
    decode sel ⟨.code, [code]⟩ = .ok (k.instr code) := by
  simp [decode, h]

theorem pfxE0 : Statement .pfxE0 := fun sel h =>
  code_of_class (sel := sel) (k := .pfxE0) 0xE0#8 (by simp [Instr.wf] at h; simp [classify, h])

theorem pfxE0Dup : Statement .pfxE0Dup := fun sel h =>
  code_of_class (sel := sel) (k := .pfxE0Dup) 0xE0#8 (by simp [Instr.wf] at h; simp [classify, h])

theorem pfxF0 : Statement .pfxF0 := fun sel _ =>
  code_of_class (sel := sel) (k := .pfxF0) 0xF0#8 (by simp [classify])

theorem macroTrigger (code : Byte) : Statement (.macroTrigger code) :=
  fun _ h => code_of_class (k := .trigger) code (by simpa [Instr.wf] using h)

theorem rshiftMake : Statement .rshiftMake :=
  fun sel h => code_of_class (k := .rshiftMake) sel.cfg.rshiftCode (by simpa [Instr.wf] using h)

theorem rshiftBreak : Statement .rshiftBreak :=
  fun sel h => code_of_class (k := .rshiftBreak) sel.cfg.rshiftCode (by simpa [Instr.wf] using h)

theorem keyMake (code : Byte) : Statement (.keyMake code) :=
  fun _ h => code_of_class (k := .keyMake) code (by simpa [Instr.wf] using h)

theorem keyBreak (code : Byte) : Statement (.keyBreak code) :=
  fun _ h => code_of_class (k := .keyBreak) code (by simpa [Instr.wf] using h)

theorem badCode (code : Byte) : Statement (.badCode code) :=
  fun _ h => code_of_class (k := .bad) code (by simpa [Instr.wf] using h)

theorem swSetByte_fields : ∀ (a : Addr) (closed : Bool),
    (swSetByte a closed).getLsbD 7 = false ∧ (swSetByte a closed).extractLsb' 1 6 = a ∧
      (swSetByte a closed).getLsbD 0 = closed := by
  decide

theorem swSet (a : Addr) (closed : Bool) : Statement (.swSet a closed) := by
  intro sel _
  obtain ⟨h1, h2, h3⟩ := swSetByte_fields a closed
  simp only [encode, decode, decodeSwSet, h1, h2, h3, Bool.false_eq_true, if_false]

theorem swReset : Statement .swReset := fun _ _ => rfl

theorem macroPlay (seq : List Byte) : Statement (.macroPlay seq) := by
  intro sel h
  simp only [Instr.wf, Config.playOk, Bool.and_eq_true, List.all_eq_true, Bool.not_eq_true'] at h
  have ha : (seqEntries seq).any (isTrigger sel.cfg) = false := by
    rw [List.any_eq_false]; intro e he; simp [h.2 e he]
  simp only [encode, decode, decodeSeq, h.1, ha, Bool.not_true, Bool.false_eq_true, if_false]

theorem recover (cause : Cause) : Statement (.recover cause) := fun _ _ => rfl

theorem boot : Statement .boot := fun _ _ => rfl

end Sys2Proof.Laws.Encoding
end

