-- ==== Sys2Proof/Laws/Step.lean ====
section
/-! SUPPORT. What one step can do, said once: its cases, and the state with an item taken. -/

namespace Sys2Proof.Machine

/-- Taking an item keeps what `Moves` keeps, but for the queue, and every register but the input pins. -/
theorem takeItem_eq (x : Input) (rest : List Input) (s : State) :
    takeItem x rest s =
      { s with inputs := rest, ps2Clk := (takeItem x rest s).ps2Clk, ps2Dat := (takeItem x rest s).ps2Dat } := by
  unfold takeItem
  cases x.port <;> try rfl
  rcases x.bytes with _ | ⟨b, _ | ⟨c, r⟩⟩ <;> rfl

@[simp] theorem takeItem_selector (x : Input) (rest : List Input) (s : State) :
    (takeItem x rest s).selector = s.selector := by
  rw [takeItem_eq]; rfl

/-- The cases of a step that goes on: the idle loop, a dropped edge, or the decoded operation. -/
theorem step_cases {s t : State} (h : step s = .next t) :
    s.cfg.wf = true ∧
    ((s.inputs = [] ∧ t = s) ∨
     ∃ x rest, s.inputs = x :: rest ∧
       ((isDropped x s = true ∧ t = takeItem x rest s) ∨
        ∃ i, isDropped x s = false ∧ decode s.selector x = .ok i ∧ exec i (takeItem x rest s) = .next t)) := by
  unfold step fetch at h
  by_cases hc : s.cfg.wf = true
  · refine ⟨hc, ?_⟩
    simp only [hc, Bool.not_true, Bool.false_eq_true, if_false] at h
    cases hi : s.inputs with
    | nil => rw [hi] at h; cases h; exact .inl ⟨rfl, rfl⟩
    | cons x rest =>
      rw [hi] at h
      refine .inr ⟨x, rest, rfl, ?_⟩
      by_cases hd : isDropped x s = true
      · simp only [hd, if_true] at h; cases h; exact .inl ⟨hd, rfl⟩
      · simp only [hd] at h
        cases hx : decode s.selector x with
        | ok i => rw [hx] at h; exact .inr ⟨i, by simpa using hd, rfl, h⟩
        | error e => rw [hx] at h; cases h
  · simp [hc] at h

/-- A step on an item that decodes and is not dropped is `exec` of the decoded operation. -/
theorem step_of_decode {s : State} {x : Input} {rest : List Input} {i : Instr} (hc : s.cfg.wf = true)
    (hi : s.inputs = x :: rest) (hd : isDropped x s = false) (hx : decode s.selector x = .ok i) :
    step s = exec i (takeItem x rest s) := by
  unfold step fetch
  simp only [hc, Bool.not_true, Bool.false_eq_true, if_false, hi, hd, hx]

/-- A step on a dropped edge only takes the item. -/
theorem step_of_dropped {s : State} {x : Input} {rest : List Input} (hc : s.cfg.wf = true)
    (hi : s.inputs = x :: rest) (hd : isDropped x s = true) : step s = .next (takeItem x rest s) := by
  unfold step fetch
  simp only [hc, Bool.not_true, Bool.false_eq_true, if_false, hi, hd, if_true]

/-- Every operation but boot moves the bus by items and keeps the configuration and the queue. -/
theorem exec_moves {i : Instr} {s t : State} (hb : i ≠ .boot) (h : exec i s = .next t) : Moves s t := by
  cases i with
  | frame cells => exact (deliverCells_spec h).1
  | keyEnc enc => exact (execKeyEnc_spec h).1.moves
  | edgeF d => rw [exec, execEdgeF_eq] at h; cases h; exact .of_regs rfl rfl ⟨rfl, rfl, rfl, rfl, rfl⟩
  | edgeR d => rw [exec, execEdgeR_eq] at h; cases h; exact .of_regs rfl rfl ⟨rfl, rfl, rfl, rfl, rfl⟩
  | edgeRDone d => exact (execEdgeRDone_spec (d := d) h).1
  | pfxE0 => obtain ⟨u, hu, k, -⟩ := execPfxE0_completes s; rw [exec, hu] at h; cases h; exact k.moves
  | pfxE0Dup => obtain ⟨u, hu, k, -⟩ := execPfxE0Dup_completes s; rw [exec, hu] at h; cases h; exact k.moves
  | pfxF0 => obtain ⟨u, hu, k, -⟩ := execPfxF0_completes s; rw [exec, hu] at h; cases h; exact k.moves
  | macroTrigger code => exact (execMacroTrigger_spec h).1.moves
  | rshiftMake => obtain ⟨u, hu, k, -⟩ := execRshiftMake_completes s; rw [exec, hu] at h; cases h; exact k.moves
  | rshiftBreak => obtain ⟨u, hu, k, -⟩ := execRshiftBreak_completes s; rw [exec, hu] at h; cases h; exact k.moves
  | keyMake code => obtain ⟨u, hu, k, -⟩ := execKeyMake_completes code s; rw [exec, hu] at h; cases h; exact k.moves
  | keyBreak code => obtain ⟨u, hu, k, -⟩ := execKeyBreak_completes code s; rw [exec, hu] at h; cases h; exact k.moves
  | badCode code => obtain ⟨u, hu, k, -⟩ := execBadCode_completes code s; rw [exec, hu] at h; cases h; exact k.moves
  | swSet a closed => cases h; rw [swSet_eq]; exact (translates_afterItem _ _).moves
  | swReset => cases h; rw [swReset_eq]; exact (translates_afterItem _ _).moves
  | macroPlay seq => exact (play_spec h).1.moves
  | recover cause => cases h; exact (raiseDesync_translates _ _).moves
  | boot => exact absurd rfl hb

end Sys2Proof.Machine
end

