-- ==== Sys2Proof/Tests/Slice0.lean ====
section
/-! SUPPORT. The model's own tests: the well-formedness checks each refuse an ill-formed term; words written out from
the spec's encodings decode to their operation; at most two single steps per operation, whose expected values are the
vectors `V<n>` of 95_test_vectors.md; and for every statement with hypotheses a state that meets them. -/

open Sys2Proof Sys2Proof.Machine

namespace Sys2Proof.Tests

/-- What is read of the state an outcome goes on to. -/
def after {α : Type} (o : Outcome) (f : State → α) : Option α := (nextState o).map f

/-- The post-boot state with one item in the queue. -/
def queued (x : Input) : State := State.reset.setInputs [x]

/-- The item `BYTE b`. -/
def byteItem (b : Byte) : Input := ⟨.code, [b]⟩

/-- The post-boot state in another decoder position. -/
def at' (p : EdgePhase) (n : BitVec 4) (a : Byte) : State := { State.reset with edgePhase := p, bitCount := n, acc := a }

/-- The reset position with another field or two. -/
def selPos (p : EdgePhase) (n : BitVec 4) : Selector := { Selector.reset with edgePhase := p, bitCount := n }
def selReleased : Selector := { Selector.reset with ts := .released }
def selExt : Selector := { Selector.reset with ext := true }

theorem next_of {o : Outcome} (h : (nextState o).isSome = true) : ∃ t, o = .next t := by
  cases o with
  | next t => exact ⟨t, rfl⟩
  | fault f => cases f
  | refused r => cases h

/-! ### Well-formedness: every check refuses an ill-formed term -/

theorem test_wf_keyEnc_zeroAddress : (Instr.keyEnc 0x80#8).wf Selector.reset = false := by decide
theorem test_wf_edgeF_phase : (Instr.edgeF .high).wf (selPos .rising 11#4) = false := by decide
theorem test_wf_edgeF_position : (Instr.edgeF .high).wf (selPos .falling 12#4) = false := by decide
theorem test_wf_edgeR_lastCell : (Instr.edgeR .high).wf (selPos .rising 1#4) = false := by decide
theorem test_wf_edgeRDone_earlyCell : (Instr.edgeRDone .high).wf (selPos .rising 2#4) = false := by decide
theorem test_wf_pfxE0_pending : Instr.pfxE0.wf selExt = false := by decide
theorem test_wf_pfxE0Dup_fresh : Instr.pfxE0Dup.wf Selector.reset = false := by decide
theorem test_wf_macroTrigger_unbound : (Instr.macroTrigger 0x1C#8).wf Selector.reset = false := by decide
theorem test_wf_rshiftMake_released : Instr.rshiftMake.wf selReleased = false := by decide
theorem test_wf_rshiftBreak_idle : Instr.rshiftBreak.wf Selector.reset = false := by decide
theorem test_wf_keyMake_released : (Instr.keyMake 0x1C#8).wf selReleased = false := by decide
theorem test_wf_keyBreak_range : (Instr.keyBreak 0x84#8).wf selReleased = false := by decide
theorem test_wf_badCode_key : (Instr.badCode 0x83#8).wf Selector.reset = false := by decide
theorem test_wf_macroPlay_sentinel : (Instr.macroPlay [0x1C#8]).wf Selector.reset = false := by decide
theorem test_wf_macroPlay_trigger : (Instr.macroPlay [0x05#8, 0x00#8]).wf Selector.reset = false := by decide

theorem test_cfg_testcfg : Config.testcfg.wf = true := by decide
theorem test_cfg_range_order : Config.wf { Config.testcfg with codeLo := 0x84#8 } = false := by decide
theorem test_cfg_range_top : Config.wf { Config.testcfg with codeHi := 0xE1#8 } = false := by decide
theorem test_cfg_rshift_prefix :
    Config.wf { Config.testcfg with rshiftCode := 0xE0#8 } = false ∧
    Config.wf { Config.testcfg with rshiftCode := 0xF0#8 } = false := by decide
theorem test_cfg_rshift_trigger : Config.wf { Config.testcfg with rshiftCode := 0x05#8 } = false := by decide
theorem test_cfg_digitZero : Config.wf { Config.testcfg with digitDelta := [(0x00#8, .plusTwo)] } = false := by decide
theorem test_cfg_modifiers : Config.wf { Config.testcfg with symAddr := 0x01#6 } = false := by decide
theorem test_cfg_symKey : Config.wf { Config.testcfg with symKeyEnc := 0x02#8 } = false := by decide
theorem test_cfg_macros_distinct :
    Config.wf { Config.testcfg with macros := [⟨0x05#8, [0x00#8]⟩, ⟨0x05#8, [0x00#8]⟩] } = false := by decide
theorem test_cfg_macros_trigger :
    Config.wf { Config.testcfg with macros := [⟨0x00#8, [0x00#8]⟩] } = false ∧
    Config.wf { Config.testcfg with macros := [⟨0xE0#8, [0x00#8]⟩] } = false ∧
    Config.wf { Config.testcfg with macros := [⟨0xF0#8, [0x00#8]⟩] } = false := by decide
theorem test_cfg_macros_sequence :
    Config.wf { Config.testcfg with macros := [⟨0x05#8, [0x1C#8]⟩] } = false ∧
    Config.wf { Config.testcfg with macros := [⟨0x05#8, [0x1C#8, 0x00#8, 0x16#8]⟩] } = false ∧
    Config.wf { Config.testcfg with macros := [⟨0x05#8, [0x05#8, 0x00#8]⟩] } = false := by decide
theorem test_cfg_durations_positive :
    Config.wf { Config.testcfg with tAddrSettle := 0 } = false ∧ Config.wf { Config.testcfg with tHold := 0 } = false ∧
    Config.wf { Config.testcfg with tResetPulse := 0 } = false ∧ Config.wf { Config.testcfg with tKeySettle := 0 } = false ∧
    Config.wf { Config.testcfg with tMacroDwell := 0 } = false := by decide
theorem test_cfg_durations_settle : Config.wf { Config.testcfg with tMacroSettle := 1 } = false := by decide
theorem test_cfg_zeroAddr_table :
    Config.wf { Config.testcfg with ext := [(0x75#8, ⟨0x08#8, 0xC0#8⟩)] } = false ∧
    Config.wf { Config.testcfg with plain := [(0x75#8, ⟨0x40#8, 0x00#8⟩)] } = false := by decide
theorem test_cfg_zeroAddr_relocated :
    Config.wf { Config.testcfg with plain := [(0x75#8, ⟨0x38#8, 0x00#8⟩)], digitDelta := [(0x38#8, .plusEight)] } = false :=
  by decide
theorem test_cfg_zeroAddr_symKey : Config.wf { Config.testcfg with symKeyEnc := 0x80#8 } = false := by decide
theorem test_cfg_zeroAddr_allowed :
    Config.wf { Config.testcfg with symKeyEnc := 0x80#8, allowZeroAddrMod := true } = true := by decide

/-! ### Decoding: words written out from the spec's encodings -/

/-- F1, 95_test_vectors.md part 2: 0x1C is `0 00111000 0 1`. -/
theorem test_decode_frame : decode Selector.reset ⟨.frame, [0b11100001#8, 0b00000000#8]⟩ = .ok (.frame 0b00011100001#11) := by
  rfl
/-- The frame strings of 95_test_vectors.md part 2, among them both parities. -/
theorem test_frameOf :
    frameOf 0x1C#8 = 0b00011100001#11 ∧ frameOf 0xF0#8 = 0b00000111111#11 ∧ frameOf 0xE1#8 = 0b01000011111#11 ∧
    frameOf 0x83#8 = 0b01100000101#11 := by decide
/-- F3: `SCcccrrr`, the SYM key of TESTCFG at column 0, row 2. -/
theorem test_decode_keyEnc : decode Selector.reset ⟨.keyEnc, [0b10000010#8]⟩ = .ok (.keyEnc 0x82#8) := by rfl
/-- The fields of F3 (R62): 0xA3 needs SYM, not CAPS, at column 4, row 3; 0x61 needs CAPS, not SYM, at 0x21. -/
theorem test_keyEncoding_fields :
    (needsSym 0b10100011#8, needsCaps 0b10100011#8, encAddr 0b10100011#8) = (true, false, 0b100011#6) ∧
    (needsSym 0b01100001#8, needsCaps 0b01100001#8, encAddr 0b01100001#8) = (false, true, 0b100001#6) := by decide
theorem test_decode_edgeF : decode (selPos .falling 11#4) ⟨.edge .fall, [0b00000001#8]⟩ = .ok (.edgeF .high) := by rfl
theorem test_decode_edgeR : decode (selPos .rising 2#4) ⟨.edge .rise, [0b00000000#8]⟩ = .ok (.edgeR .low) := by rfl
theorem test_decode_edgeRDone : decode (selPos .rising 1#4) ⟨.edge .fall, [0b00000001#8]⟩ = .ok (.edgeRDone .high) := by rfl
theorem test_decode_pfxE0 : decode Selector.reset ⟨.code, [0b11100000#8]⟩ = .ok .pfxE0 := by rfl
theorem test_decode_pfxE0Dup : decode selExt ⟨.code, [0b11100000#8]⟩ = .ok .pfxE0Dup := by rfl
theorem test_decode_pfxF0 : decode Selector.reset ⟨.code, [0b11110000#8]⟩ = .ok .pfxF0 := by rfl
theorem test_decode_macro : decode selReleased ⟨.code, [0b00000101#8]⟩ = .ok (.macroTrigger 0x05#8) := by rfl
theorem test_decode_rshiftMake : decode Selector.reset ⟨.code, [0b01011001#8]⟩ = .ok .rshiftMake := by rfl
theorem test_decode_rshiftBreak : decode selReleased ⟨.code, [0b01011001#8]⟩ = .ok .rshiftBreak := by rfl
theorem test_decode_keyMake : decode Selector.reset ⟨.code, [0b00011100#8]⟩ = .ok (.keyMake 0x1C#8) := by rfl
/-- The upper bound of the key range is exclusive: 0x83 is the last key of TESTCFG. -/
theorem test_decode_keyBreak : decode selReleased ⟨.code, [0b10000011#8]⟩ = .ok (.keyBreak 0x83#8) := by rfl
theorem test_decode_badCode :
    decode Selector.reset ⟨.code, [0b11100001#8]⟩ = .ok (.badCode 0xE1#8) ∧
    decode Selector.reset ⟨.code, [0b10000100#8]⟩ = .ok (.badCode 0x84#8) ∧
    decode Selector.reset ⟨.code, [0b00000000#8]⟩ = .ok (.badCode 0x00#8) := ⟨rfl, rfl, rfl⟩
/-- F5: `cccrrrd`, column 1, row 0, close; column 7, row 6, open. -/
theorem test_decode_swSet :
    decode Selector.reset ⟨.swSet, [0b0010001#8]⟩ = .ok (.swSet 0x08#6 true) ∧
    decode Selector.reset ⟨.swSet, [0b1111100#8]⟩ = .ok (.swSet 0x3E#6 false) := ⟨rfl, rfl⟩
theorem test_decode_swReset : decode Selector.reset ⟨.swReset, []⟩ = .ok .swReset := by rfl
theorem test_decode_macroPlay :
    decode Selector.reset ⟨.play, [0x1C#8, 0x16#8, 0x00#8]⟩ = .ok (.macroPlay [0x1C#8, 0x16#8, 0x00#8]) := by rfl
/-- R161: bytes after the first zero are never read, so even a trigger may stand there. -/
theorem test_decode_macroPlay_trailing :
    decode Selector.reset ⟨.play, [0x1C#8, 0x00#8, 0x05#8]⟩ = .ok (.macroPlay [0x1C#8, 0x00#8, 0x05#8]) := by rfl
theorem test_decode_recover : decode Selector.reset ⟨.recover .badCode, []⟩ = .ok (.recover .badCode) := by rfl
theorem test_decode_boot : decode Selector.reset ⟨.boot, []⟩ = .ok .boot := by rfl

theorem test_decode_strayBits :
    decode Selector.reset ⟨.edge .fall, [0x02#8]⟩ = .error .strayBits ∧
    decode Selector.reset ⟨.frame, [0x00#8, 0x08#8]⟩ = .error .strayBits ∧
    decode Selector.reset ⟨.swSet, [0x80#8]⟩ = .error .strayBits := ⟨rfl, rfl, rfl⟩
theorem test_decode_wrongLength :
    decode Selector.reset ⟨.code, []⟩ = .error .wrongLength ∧
    decode Selector.reset ⟨.frame, [0x00#8]⟩ = .error .wrongLength ∧
    decode Selector.reset ⟨.boot, [0x00#8]⟩ = .error .wrongLength := ⟨rfl, rfl, rfl⟩

/-! ### Single steps -/

/-- Program 1, first frame; V2. -/
theorem test_frame :
    after (step (State.reset.withFetchWord 16 0b00011100001)) (fun t => (t.trace, t.ts, t.lastCode, t.bitCount)) =
      some ([.set 0x08#6 true], .pressed, 0x1C#8, 11#4) := by decide
/-- V5 and V4: start, parity and stop are not checked, the old accumulator has no influence. -/
theorem test_frame_unchecked :
    after (exec (.frame 0b10011100010#11) (at' .falling 11#4 0xFF#8)) (fun t => (t.trace, t.lastCode)) =
      some ([.set 0x08#6 true], 0x1C#8) := by decide
/-- R115 on 0x82: SYM asserted as modifier and as key (V25), with its latch (R116). -/
theorem test_keyEnc :
    after (step (queued ⟨.keyEnc, [0x82#8]⟩)) (fun t => (t.trace, t.symHeld)) =
      some ([.set 0x02#6 true, .set 0x02#6 true], true) := by decide
/-- V1, third row, by one clock edge. -/
theorem test_edgeF :
    after (exec (.edgeF .low) (at' .falling 10#4 0xFF#8)) (fun t => (t.edgePhase, t.bitCount, t.acc, t.busy)) =
      some (.rising, 10#4, 0x7F#8, false) := by decide
/-- V1, sixth row: the parity cell is outside the window. -/
theorem test_edgeF_parity :
    after (exec (.edgeF .high) (at' .falling 2#4 0x1C#8)) (fun t => (t.edgePhase, t.bitCount, t.acc)) =
      some (.rising, 2#4, 0x1C#8) := by decide
/-- V1, eighth row. -/
theorem test_edgeR :
    after (exec (.edgeR .low) (at' .rising 11#4 0x00#8)) (fun t => (t.edgePhase, t.bitCount, t.acc)) =
      some (.falling, 10#4, 0x00#8) := by decide
/-- V1, last row, as a step: the level and the direction are not read. -/
theorem test_edgeRDone :
    after (step { at' .rising 1#4 0x1C#8 with inputs := [⟨.edge .fall, [0x00#8]⟩] })
      (fun t => (t.edgePhase, t.bitCount, t.acc, t.trace, t.busy)) =
      some (.falling, 11#4, 0x00#8, [.set 0x08#6 true], false) := by decide
/-- V28, after `FRAME 0xE0` alone. -/
theorem test_pfxE0 :
    after (step (queued (byteItem 0xE0#8))) (fun t => (t.ext, t.lastCode, t.trace)) = some (true, 0xE0#8, []) := by decide
/-- V31, the last line: `ts` is kept. -/
theorem test_pfxE0Dup :
    after (step { queued (byteItem 0xE0#8) with ext := true, ts := .released, rsHeld := true })
      (fun t => (t.ext, t.rsHeld, t.ts, t.lastCode, t.trace)) = some (false, false, .released, 0xE0#8, [.reset]) := by decide
/-- V20, after `FRAME 0xF0`. -/
theorem test_pfxF0 :
    after (step (queued (byteItem 0xF0#8))) (fun t => (t.ts, t.lastCode, t.trace)) = some (.released, 0xF0#8, []) := by decide
/-- V51. -/
theorem test_macro :
    after (step (queued (byteItem 0x05#8))) (fun t => (t.trace, t.ts, t.lastCode, t.irqEn)) =
      some ([.set 0x08#6 true, .delay .tMacroDwell, .set 0x08#6 false, .set 0x08#6 true, .delay .tMacroSettle,
        .set 0x18#6 true, .delay .tMacroDwell, .set 0x18#6 false, .set 0x18#6 true, .delay .tMacroSettle],
        .pressed, 0x16#8, true) := by decide
/-- V52: the first `Decode` inherits the pending break. -/
theorem test_macro_released :
    after (step { queued (byteItem 0x05#8) with ts := .released }) (fun t => (t.trace.head?, t.ts)) =
      some (some (.set 0x08#6 false), .pressed) := by decide
/-- V27, first line. -/
theorem test_rshiftMake :
    after (step (queued (byteItem 0x59#8))) (fun t => (t.rsHeld, t.ts, t.trace)) = some (true, .pressed, []) := by decide
/-- V27, third line: the sticky latch is kept. -/
theorem test_rshiftBreak :
    after (step { queued (byteItem 0x59#8) with ts := .released, rsHeld := true, rsPunctApplied := true })
      (fun t => (t.rsHeld, t.rsPunctApplied, t.ts, t.trace)) = some (false, true, .idle, []) := by decide
/-- V22, the make: CAPS is opened after the delay. -/
theorem test_keyMake_compound :
    after (step (queued (byteItem 0x0E#8))) (fun t => (t.trace, t.sw)) =
      some ([.set 0x01#6 true, .set 0x21#6 true, .delay .tKeySettle, .set 0x01#6 false, .set 0x02#6 true, .set 0x22#6 true],
        [(0x02, 0x01#8), (0x21, 0x01#8), (0x22, 0x01#8)]) := by decide
/-- V25, second line: the digit row is relocated under SYM. -/
theorem test_keyMake_relocated :
    after (step { queued (byteItem 0x16#8) with symHeld := true }) (fun t => (t.trace, t.digitApplied)) =
      some ([.set 0x20#6 true], true) := by decide
/-- V22, the break: secondary, then primary. -/
theorem test_keyBreak_compound :
    after (step { queued (byteItem 0x0E#8) with ts := .released }) (fun t => (t.trace, t.ts)) =
      some ([.set 0x02#6 false, .set 0x22#6 false, .set 0x01#6 false, .set 0x21#6 false], .idle) := by decide
/-- V27, last line: the sticky latch remaps the break. -/
theorem test_keyBreak_sticky :
    after (step { queued (byteItem 0x4C#8) with ts := .released, rsPunctApplied := true })
      (fun t => (t.trace, t.rsPunctApplied)) = some ([.set 0x02#6 false, .set 0x25#6 false], false) := by decide
/-- V32 with V61: the decoder registers and `ts` are kept. -/
theorem test_badCode :
    after (step { at' .falling 5#4 0x70#8 with inputs := [byteItem 0xE1#8], ext := true, rsHeld := true, ts := .released })
      (fun t => (t.trace, t.ext, t.rsHeld, t.ts, t.bitCount, t.acc)) =
      some ([.reset], false, false, .released, 5#4, 0x70#8) := by decide
/-- V40, as a step on the transaction item. -/
theorem test_swSet :
    after (step (queued ⟨.swSet, [0b0010001#8]⟩)) (fun t => (t.pinTrace, t.sw)) =
      some ([.addr 0b001000#6, .delay .tAddrSettle, .strobe .high, .data .high, .delay .tHold, .strobe .low],
        [(0x08, 0x01#8)]) := by decide
/-- V43: both polarities low. -/
theorem test_swSet_low :
    after (exec (.swSet 0x3F#6 true) (State.bootOf { Config.testcfg with strobeActive := .low, dataClosed := .low }))
      (fun t => (t.pinTrace, t.sw)) =
      some ([.addr 0b111111#6, .delay .tAddrSettle, .strobe .low, .data .low, .delay .tHold, .strobe .high],
        [(0x3F, 0x01#8)]) := by decide
/-- V42. -/
theorem test_swReset :
    after (step { queued ⟨.swReset, []⟩ with sw := [(0x08, 0x01#8), (0x3F, 0x01#8)] }) (fun t => (t.pinTrace, t.sw)) =
      some ([.resetLine .high, .delay .tResetPulse, .resetLine .low], []) := by decide
/-- V50 with `irqEn` false. -/
theorem test_macroPlay_empty :
    after (step { queued ⟨.play, [0x00#8]⟩ with irqEn := false }) (fun t => (t.trace, t.irqEn)) = some ([], true) := by decide
/-- R162, one entry: press, release, second press; R161, nothing beyond the first zero is read. -/
theorem test_macroPlay :
    after (step (queued ⟨.play, [0x1C#8, 0x00#8, 0x16#8]⟩)) (fun t => (t.trace, t.ts)) =
      some ([.set 0x08#6 true, .delay .tMacroDwell, .set 0x08#6 false, .set 0x08#6 true, .delay .tMacroSettle], .pressed) :=
  by decide
/-- R172, the cause has no influence. -/
theorem test_recover :
    after (step { queued ⟨.recover .dupPrefix, []⟩ with symHeld := true, lastCode := 0x66#8 })
      (fun t => (t.trace, t.symHeld, t.lastCode)) = some ([.reset], false, 0x66#8) := by decide
/-- V60. -/
theorem test_boot :
    after (step { queued ⟨.boot, []⟩ with edgePhase := .rising, bitCount := 3#4, acc := 0x70#8, irqEn := false, rsHeld := true })
      (fun t => (t.trace, decide ({ t with trace := [], pinTrace := [] } = State.reset))) = some ([.reset], true) := by decide

/-- V44. -/
theorem test_fold :
    applyTrace [] [.set 0x01#6 true, .set 0x21#6 true, .delay .tKeySettle, .set 0x01#6 false, .set 0x02#6 true,
      .set 0x22#6 true, .reset, .set 0x08#6 true] = [(0x08, 0x01#8)] := by decide

/-! ### Witnesses: a state that meets the hypotheses of each statement -/

theorem reset_inv : Inv State.reset := ⟨by decide, rfl, rfl, rfl, Memory.allOpen_wf⟩

theorem queued_inv (x : Input) : Inv (queued x) := ⟨rfl, rfl, rfl, rfl, Memory.allOpen_wf⟩

theorem witness_ResetRegisterValues : ∃ c : Config, c = Config.testcfg ∧ c.wf = true := ⟨_, rfl, by decide⟩

/-- For the statements about every step that goes on. -/
theorem witness_step : ∃ s t : State, Inv s ∧ step s = .next t ∧ (∀ x rest, s.inputs = x :: rest → x.port ≠ .boot) := by
  obtain ⟨t, ht⟩ := next_of (o := step (queued (byteItem 0x0E#8))) (by decide)
  exact ⟨_, t, queued_inv _, ht, by intro x rest h; cases h; decide⟩

theorem witness_StepRunsDecodedInstruction :
    ∃ (s : State) (x : Input) (rest : List Input) (i : Instr),
      s.cfg.wf = true ∧ s.inputs = x :: rest ∧ decode s.selector x = .ok i ∧
      ((∃ pol, x.port = .edge pol) → s.irqEn = true ∧ s.busy = false) ∧ (∃ pol b, x = ⟨.edge pol, [b]⟩) :=
  ⟨queued ⟨.edge .rise, [0x01#8]⟩, _, [], .edgeF .high, by decide, rfl, rfl, fun _ => ⟨rfl, rfl⟩, .rise, 0x01#8, rfl⟩

theorem witness_StepRunsDecodedInstruction_byte :
    ∃ (s : State) (x : Input), s.inputs = [x] ∧ decode s.selector x = .ok (.keyMake 0x1C#8) ∧ ∀ pol, x.port ≠ .edge pol :=
  ⟨queued (byteItem 0x1C#8), _, rfl, rfl, by intro pol; simp [byteItem]⟩

theorem witness_StepIdlesOrRefuses_idle : ∃ s : State, s.cfg.wf = true ∧ s.inputs = [] := ⟨State.reset, by decide, rfl⟩

theorem witness_StepIdlesOrRefuses_config : ∃ s : State, s.cfg.wf = false :=
  ⟨State.bootOf { Config.testcfg with codeHi := 0xE1#8 }, by decide⟩

theorem witness_StepIdlesOrRefuses_item :
    ∃ (s : State) (x : Input) (e : DecodeError),
      s.cfg.wf = true ∧ s.inputs = [x] ∧ decode s.selector x = .error e ∧ isDropped x s = false :=
  ⟨queued ⟨.swSet, [0x80#8]⟩, _, .strayBits, by decide, rfl, rfl, rfl⟩

theorem witness_StepAlwaysGoesOn :
    (∃ s : State, s.cfg.wf = true ∧ Inv s ∧ s.inputs = []) ∧
    ∃ (s : State) (x : Input) (rest : List Input) (i : Instr),
      s.cfg.wf = true ∧ Inv s ∧ s.inputs = x :: rest ∧ decode s.selector x = .ok i :=
  ⟨⟨State.reset, by decide, reset_inv, rfl⟩, queued (byteItem 0x05#8), _, [], .macroTrigger 0x05#8, by decide,
    queued_inv _, rfl, rfl⟩

/-- For the statements about every operation that goes on: one that keeps the interrupt enable, one that sets it. -/
theorem witness_exec :
    (∃ (i : Instr) (s t : State), exec i s = .next t ∧ (∀ seq, i ≠ .macroPlay seq) ∧ (∀ code, i ≠ .macroTrigger code) ∧
      i ≠ .boot ∧ (∀ d, i ≠ .edgeF d) ∧ (∀ d, i ≠ .edgeR d) ∧ (∀ d, i ≠ .edgeRDone d) ∧ (∀ cells, i ≠ .frame cells)) ∧
    (∃ (seq : List Byte) (s t : State), exec (.macroPlay seq) s = .next t ∧ s.irqEn = false) ∧
    (∃ (code : Byte) (s t : State), exec (.macroTrigger code) s = .next t ∧ s.irqEn = false) ∧
    ∃ s t : State, exec .boot s = .next t ∧ s.irqEn = false := by
  obtain ⟨t, ht⟩ := next_of (o := exec (.macroTrigger 0x05#8) (State.reset.setIrqEn false)) (by decide)
  exact ⟨⟨.pfxF0, State.reset, _, rfl, by simp⟩, ⟨[0x00#8], State.reset.setIrqEn false, _, rfl, rfl⟩,
    ⟨0x05#8, _, t, ht, rfl⟩, ⟨State.reset.setIrqEn false, _, rfl, rfl⟩⟩

/-- Both ends of the data window, and the cells beside it. -/
theorem witness_EdgeFShiftsDataCells :
    (3#4 ≤ (at' .falling 3#4 0x00#8).bitCount ∧ (at' .falling 3#4 0x00#8).bitCount ≤ 10#4) ∧
    (3#4 ≤ (at' .falling 10#4 0x00#8).bitCount ∧ (at' .falling 10#4 0x00#8).bitCount ≤ 10#4) ∧
    ¬(3#4 ≤ (at' .falling 2#4 0x00#8).bitCount ∧ (at' .falling 2#4 0x00#8).bitCount ≤ 10#4) ∧
    ¬(3#4 ≤ (at' .falling 11#4 0x00#8).bitCount ∧ (at' .falling 11#4 0x00#8).bitCount ≤ 10#4) := by decide

theorem witness_EdgeRCountsTheCell : ∃ s : State, s.edgePhase = .rising ∧ 2#4 ≤ s.bitCount ∧ s.bitCount = 2#4 :=
  ⟨at' .rising 2#4 0x00#8, rfl, by decide, rfl⟩

theorem witness_EdgeRDoneHandsTheByteOver : ∃ s : State, s.cfg.wf = true ∧ s.edgePhase = .rising ∧ s.bitCount = 1#4 :=
  ⟨at' .rising 1#4 0x05#8, by decide, rfl, rfl⟩

/-- At the end of the cycle: the position goes from 21 to 0. -/
theorem witness_DeliveredEdgeAdvancesPosition :
    ∃ (s t : State) (pol : Polarity) (b : Byte) (rest : List Input),
      Inv s ∧ s.irqEn = true ∧ s.inputs = ⟨.edge pol, [b]⟩ :: rest ∧ step s = .next t ∧ cyclePosition s = 21 := by
  obtain ⟨t, ht⟩ := next_of (o := step { at' .rising 1#4 0x1C#8 with inputs := [⟨.edge .rise, [0x01#8]⟩] }) (by decide)
  exact ⟨_, t, .rise, 0x01#8, [], ⟨by decide, rfl, rfl, rfl, Memory.allOpen_wf⟩, rfl, rfl, ht, rfl⟩

theorem witness_UndeliverableEdgeIsDropped :
    (∃ s : State, s.cfg.wf = true ∧ s.irqEn = false ∧ s.inputs = [⟨.edge .fall, [edgeByte .low]⟩]) ∧
    ∃ s : State, s.cfg.wf = true ∧ s.busy = true ∧ s.inputs = [⟨.edge .rise, [edgeByte .high]⟩] :=
  ⟨⟨(queued ⟨.edge .fall, [edgeByte .low]⟩).setIrqEn false, by decide, rfl, rfl⟩,
    (queued ⟨.edge .rise, [edgeByte .high]⟩).setBusy true, by decide, rfl, rfl⟩

theorem witness_UnreachablePositionIsRefused :
    (∃ s : State, s.cfg.wf = true ∧ s.irqEn = true ∧ s.busy = false ∧ s.bitCount = 0#4 ∧
      s.inputs = [⟨.edge .fall, [edgeByte .low]⟩]) ∧
    ∃ s : State, s.cfg.wf = true ∧ s.irqEn = true ∧ s.busy = false ∧ 11#4 < s.bitCount ∧
      s.inputs = [⟨.edge .rise, [edgeByte .high]⟩] :=
  ⟨⟨(queued ⟨.edge .fall, [edgeByte .low]⟩).setBitCount 0#4, by decide, rfl, rfl, rfl, rfl⟩,
    (queued ⟨.edge .rise, [edgeByte .high]⟩).setBitCount 12#4, by decide, rfl, rfl, by decide, rfl⟩

theorem witness_FrameActsAsItsByte :
    ∃ (s : State) (cells : BitVec 11) (code : Byte),
      s.cfg.wf = true ∧ s.irqEn = true ∧ s.busy = false ∧ s.edgePhase = .falling ∧ s.bitCount = 11#4 ∧
      (∀ i, i < 8 → code.getLsbD i = cells.getLsbD (9 - i)) :=
  ⟨State.reset, 0b00011100001#11, 0x1C#8, by decide, rfl, rfl, rfl, rfl, by decide⟩

/-- The position of V7, out of step with the wire, and the two ends of the positions that have no meaning. -/
theorem witness_FrameDeliversItsEdges :
    (∃ s : State, s.cfg.wf = true ∧ s.irqEn = true ∧ s.busy = false ∧ s.edgePhase = .rising ∧
      1#4 ≤ s.bitCount ∧ s.bitCount ≤ 11#4 ∧ s.bitCount = 1#4) ∧
    (∃ s : State, s.irqEn = true ∧ s.busy = false ∧ s.bitCount = 0#4) ∧
    ∃ s : State, s.irqEn = true ∧ s.busy = false ∧ 11#4 < s.bitCount :=
  ⟨⟨at' .rising 1#4 0x1C#8, by decide, rfl, rfl, rfl, by decide, by decide, rfl⟩,
    ⟨at' .falling 0#4 0x00#8, rfl, rfl, rfl⟩, at' .falling 12#4 0x00#8, rfl, rfl, by decide⟩

theorem witness_MaskedFrameIsLost : (∃ s : State, s.irqEn = false) ∧ ∃ s : State, s.busy = true :=
  ⟨⟨State.reset.setIrqEn false, rfl⟩, State.reset.setBusy true, rfl⟩

/-- Each test of the dispatch holds of some byte and state. -/
theorem witness_DecodeRunsFirstMatchingOperation :
    (∃ m ∈ State.reset.cfg.macros, m.trigger = 0x05#8) ∧ State.reset.cfg.rshiftCode = 0x59#8 ∧
    (State.reset.cfg.codeLo < 0x01#8 ∧ 0x01#8 < State.reset.cfg.codeHi) ∧
    (State.reset.cfg.codeLo < 0x83#8 ∧ 0x83#8 < State.reset.cfg.codeHi) ∧
    ¬(State.reset.cfg.codeLo < 0x84#8 ∧ 0x84#8 < State.reset.cfg.codeHi) := by decide

theorem witness_LastCodeHoldsTheDecodedByte :
    ∃ (code : Byte) (s t : State), isTrigger s.cfg code = false ∧ decodeCode code s = .next t := by
  obtain ⟨t, ht⟩ := next_of (o := decodeCode 0x59#8 State.reset) (by decide)
  exact ⟨_, _, t, by decide, ht⟩

theorem witness_ext : (∃ s : State, s.ext = false) ∧ ∃ s : State, s.ext = true :=
  ⟨⟨State.reset, rfl⟩, State.reset.setExt true, rfl⟩

theorem witness_ts : (∃ s : State, s.ts ≠ .released) ∧ ∃ s : State, s.ts = .released :=
  ⟨⟨State.reset, by decide⟩, State.reset.setTs .released, rfl⟩

/-- The two ends of the reserved range and the sentinel. -/
theorem witness_ReservedBytesAreBadCodes :
    ∀ code ∈ [0x00#8, 0xE1#8, 0xEF#8, 0xF1#8, 0xFF#8], State.reset.cfg.wf = true ∧ (code = 0x00#8 ∨ 0xE1#8 ≤ code) ∧
      code ≠ 0xF0#8 ∧ isTrigger State.reset.cfg code = false ∧ code ≠ State.reset.cfg.rshiftCode := by decide

/-- The remap, by the latch `rsHeld` and by the sticky one, and none of it. -/
theorem witness_ResolveRemapsLooksUpAndRelocates_punct :
    let s := State.reset
    ((punctDeltaAt s.cfg false 0x4C#8).value ≠ 0 ∧
      ((0x50#8).toNat : Int) = (((0x4C#8).toNat : Int) + (punctDeltaAt s.cfg false 0x4C#8).value) % 256) ∧
    ¬((punctDeltaAt s.cfg false 0x1C#8).value ≠ 0) := by decide

/-- The relocation of a make and of a break, and none of it. -/
theorem witness_ResolveRemapsLooksUpAndRelocates_digit :
    let s := { State.reset with symHeld := true, digitApplied := true }
    (s.symHeld = true ∧ s.digitApplied = true ∧ (digitDeltaAt s.cfg (tableAt s.cfg.plain 0x16#8).pri).value ≠ 0) ∧
    ¬((digitDeltaAt s.cfg (tableAt s.cfg.plain 0x1C#8).pri).value ≠ 0 ∨
      (digitDeltaAt s.cfg (tableAt s.cfg.plain 0x1C#8).sec).value ≠ 0) := by decide

theorem witness_EncodingOrderOnTheBus :
    ∀ rel : Bool, ∃ s t : State, (resolve 0x0E#8 rel s).1.pri ≠ 0x00#8 ∧ (resolve 0x0E#8 rel s).1.sec ≠ 0x00#8 ∧
      exec (if rel = true then .keyBreak 0x0E#8 else .keyMake 0x0E#8) s = .next t := by
  intro rel
  obtain ⟨t, ht⟩ : ∃ t, exec (if rel = true then .keyBreak 0x0E#8 else .keyMake 0x0E#8) State.reset = .next t :=
    next_of (by cases rel <;> decide)
  exact ⟨_, t, by cases rel <;> decide, by cases rel <;> decide, ht⟩

/-- The SYM key: a simple key with a modifier. -/
theorem witness_SimpleKeySwitchSymmetry :
    ∃ (s t t' : State), (0x82#8 : Byte) ≠ 0x00#8 ∧ (resolve 0x14#8 false s).1 = ⟨0x82#8, 0x00#8⟩ ∧
      (resolve 0x14#8 true s).1 = ⟨0x82#8, 0x00#8⟩ ∧ exec (.keyMake 0x14#8) s = .next t ∧ exec (.keyBreak 0x14#8) s = .next t' := by
  obtain ⟨t, ht⟩ := next_of (o := exec (.keyMake 0x14#8) State.reset) (by decide)
  obtain ⟨t', ht'⟩ := next_of (o := exec (.keyBreak 0x14#8) State.reset) (by decide)
  exact ⟨_, t, t', by decide, by decide, by decide, ht, ht'⟩

theorem witness_SimpleKeyClosesAndOpensItsPoint :
    ∀ rel : Bool, ∃ s t : State, (0x08#8 : Byte) ≠ 0x00#8 ∧ (0x08#8 : Byte) < 0x40#8 ∧
      (resolve 0x1C#8 rel s).1 = ⟨0x08#8, 0x00#8⟩ ∧
      exec (if rel = true then .keyBreak 0x1C#8 else .keyMake 0x1C#8) s = .next t := by
  intro rel
  obtain ⟨t, ht⟩ : ∃ t, exec (if rel = true then .keyBreak 0x1C#8 else .keyMake 0x1C#8) State.reset = .next t :=
    next_of (by cases rel <;> decide)
  exact ⟨_, t, by decide, by decide, by cases rel <;> decide, ht⟩

/-- A digit-row key under SYM, whose make sets `digitApplied`. -/
theorem witness_PressThenReleaseRestoresLatches :
    ∃ (s t u : State), s.symHeld = true ∧ s.rsPunctApplied = false ∧ s.digitApplied = false ∧
      (touchesSymKey s.cfg (resolve 0x16#8 false s).1 = true → s.symHeld = false) ∧
      exec (.keyMake 0x16#8) s = .next t ∧
      exec (.keyBreak 0x16#8) { t with ts := .released, ext := s.ext } = .next u := by
  obtain ⟨t, ht⟩ := next_of (o := exec (.keyMake 0x16#8) (State.reset.setSymHeld true)) (by decide)
  exact ⟨State.reset.setSymHeld true, t, _, rfl, rfl, rfl, fun h => absurd h (by decide), ht, rfl⟩

/-- Program 7. -/
theorem witness_BreakUnderRightShiftReleasesRemappedKey :
    ∃ s t u v : State, punctDeltaAt s.cfg s.ext 0x4C#8 ≠ .none ∧ s.rsHeld = false ∧ s.rsPunctApplied = false ∧
      s.digitApplied = false ∧ s.symHeld = false ∧ s.ext = false ∧
      exec (.keyMake 0x4C#8) s = .next t ∧ exec .rshiftMake t = .next u ∧
      exec (.keyBreak 0x4C#8) { u with ts := .released } = .next v := by
  obtain ⟨t, ht⟩ := next_of (o := exec (.keyMake 0x4C#8) State.reset) (by decide)
  exact ⟨State.reset, t, _, _, by decide, rfl, rfl, rfl, rfl, rfl, ht, rfl, rfl⟩

/-- The four clauses of KEYENC. -/
theorem witness_KeyEncodingIsWorkedOnTheBus :
    let ok := fun (enc : Byte) (s : State) =>
      (enc ≠ 0x40#8 ∧ enc ≠ 0x80#8 ∧ enc ≠ 0xC0#8) ∨ s.cfg.allowZeroAddrMod = true
    ¬ok 0x40#8 State.reset ∧ (0x00#8 : Byte) = 0x00#8 ∧
    (ok 0x82#8 State.reset ∧ (0x82#8 : Byte) ≠ 0x00#8 ∧ State.reset.ts ≠ .released) ∧
    (ok 0x41#8 (State.reset.setTs .released) ∧ (0x41#8 : Byte) ≠ 0x00#8 ∧ (State.reset.setTs .released).ts = .released) := by
  decide

theorem witness_SwitchSetIsIdempotentOnTheArray :
    ∃ s t u : State, exec (.swSet 0x3F#6 true) s = .next t ∧ exec (.swSet 0x3F#6 true) t = .next u :=
  ⟨State.reset, _, _, rfl, rfl⟩

theorem witness_CanonicalSwitchSpacesAreDetermined :
    ∃ m m' : Memory, m.wf ∧ m'.wf ∧ m ≠ [] ∧ ∀ a : Addr, m.closedAt a = m'.closedAt a :=
  ⟨[(0x00, 0x01#8), (0x3F, 0x01#8)], [(0x00, 0x01#8), (0x3F, 0x01#8)], by decide, by decide, by decide, fun _ => rfl⟩

theorem witness_TraceFoldPointByPoint :
    ∃ (after : List TraceItem) (a : Addr), TraceItem.reset ∉ after ∧ (∀ c, TraceItem.set a c ∉ after) ∧ after ≠ [] :=
  ⟨[.set 0x02#6 true, .delay .tKeySettle], 0x01#6, by decide, by decide, by decide⟩

theorem witness_PlaybackPlaysEntriesMasked :
    State.reset.cfg.wf = true ∧ ∀ e ∈ [0x1C#8, 0xE0#8, 0x84#8], e ≠ 0x00#8 ∧ isTrigger State.reset.cfg e = false := by decide

theorem witness_PlaybackEntryIsFourDecodes :
    ∃ (c : Byte) (s : State), s.cfg.wf = true ∧ isTrigger s.cfg c = false := ⟨0x1C#8, State.reset, by decide, by decide⟩

theorem witness_PlaybackEndsPressed :
    ∃ (s t : State), s.cfg.wf = true ∧
      (∀ e ∈ [0x1C#8] ++ [0x16#8], e ≠ 0x00#8 ∧ isTrigger s.cfg e = false ∧ e ≠ s.cfg.rshiftCode ∧
        s.cfg.codeLo < e ∧ e < s.cfg.codeHi) ∧
      exec (.macroPlay ([0x1C#8] ++ [0x16#8, 0x00#8])) s = .next t := by
  obtain ⟨t, ht⟩ := next_of (o := exec (.macroPlay ([0x1C#8] ++ [0x16#8, 0x00#8])) State.reset) (by decide)
  exact ⟨State.reset, t, by decide, by decide, ht⟩

theorem witness_RecursiveOrUnterminatedPlaybackIsRefused :
    State.reset.cfg.wf = true ∧ 0x00#8 ∉ ([0x1C#8] : List Byte) ∧ 0x00#8 ∈ ([0x1C#8, 0x05#8, 0x00#8] : List Byte) ∧
    ∃ e ∈ seqEntries [0x1C#8, 0x05#8, 0x00#8], isTrigger State.reset.cfg e = true := by decide

theorem witness_MacroPlaysItsBoundSequence :
    (∃ m ∈ State.reset.cfg.macros, State.reset.cfg.wf = true) ∧ isTrigger State.reset.cfg 0x1C#8 = false := by decide

theorem witness_DecodeOfEncodeIsIdentity :
    (Instr.badCode 0xFF#8).wf Selector.reset = true ∧ (Instr.edgeRDone .high).wf (selPos .rising 1#4) = true ∧
    (Instr.macroPlay [0x1C#8, 0x00#8]).wf Selector.reset = true ∧ Instr.pfxE0Dup.wf selExt = true := by decide

theorem witness_EncodeOfDecodeIsTheItem :
    (∃ (sel : Selector) (x : Input) (i : Instr), decode sel x = .ok i ∧ x.port = .code) ∧
    ∃ (sel : Selector) (x : Input) (i : Instr), decode sel x = .ok i ∧ x.port = .edge .rise :=
  ⟨⟨Selector.reset, byteItem 0x1C#8, _, rfl, rfl⟩, Selector.reset, ⟨.edge .rise, [0x01#8]⟩, _, rfl, rfl⟩

end Sys2Proof.Tests
end

section
/-! PROOFS. The statements of 20_memory.md about what no write can change and about the order of writes on the switch
bus: the configuration holds the tables, which nothing writes (R54), and the two encodings of a compound key go out in
the order of R42. -/

namespace Sys2Proof.Machine

/-! ### The tables cannot be written (R54) -/

@[simp] theorem driveStrobe_cfg (l : Level) (s : State) : (driveStrobe l s).cfg = s.cfg := by
  unfold driveStrobe latchPoint
  dsimp only
  split <;> rfl

@[simp] theorem driveResetLine_cfg (l : Level) (s : State) : (driveResetLine l s).cfg = s.cfg := by
  unfold driveResetLine
  dsimp only
  split <;> rfl

/-- The register part of the boot sequence (R192) leaves the tables. -/
theorem bootRegisters_cfg (s : State) : (bootTranslator (bootDecoder s)).cfg = s.cfg := rfl

/-- BOOT is the one operation outside `Moves`: it writes idle pin levels that are no transaction. -/
theorem execBoot_cfg {s t : State} (h : execBoot s = .next t) : t.cfg = s.cfg := by
  cases h
  simp [swReset_eq, bootRegisters_cfg]

theorem exec_cfg {i : Instr} {s t : State} (h : exec i s = .next t) : t.cfg = s.cfg := by
  by_cases hb : i = .boot
  · subst hb
    exact execBoot_cfg h
  · exact (exec_moves hb h).cfg

@[simp] theorem takeItem_cfg (x : Input) (rest : List Input) (s : State) : (takeItem x rest s).cfg = s.cfg :=
  congrArg Selector.cfg (takeItem_selector x rest s)

theorem step_cfg {s t : State} (h : step s = .next t) : t.cfg = s.cfg := by
  obtain ⟨-, ⟨-, rfl⟩ | ⟨x, rest, -, ⟨-, rfl⟩ | ⟨i, -, -, hi⟩⟩⟩ := step_cases h
  · rfl
  · exact takeItem_cfg x rest s
  · rw [exec_cfg hi, takeItem_cfg]

/-- Settles O8: every operation but BOOT keeps the configuration by `Moves`, BOOT by its pin and register writes, and
taking an item from the queue writes the input pins alone. -/
theorem tablesAreImmutable : Obligations.TablesAreImmutable :=
  ⟨fun _ _ => step_cfg, fun _ _ _ => exec_cfg⟩

/-! ### The order of the two encodings (R42) -/

/-- The front end of the key path puts nothing on the bus (R109). -/
@[simp] theorem resolve_trace (code : Byte) (rel : Bool) (s : State) : (resolve code rel s).2.trace = s.trace := by
  rw [resolve_eq]

@[simp] theorem resolve_cfg (code : Byte) (rel : Bool) (s : State) : (resolve code rel s).2.cfg = s.cfg :=
  (resolve_translates code rel s).cfg

/-- What KEY.MAKE adds to the trace (R114). -/
theorem execKeyMake_trace {code : Byte} {s t : State} (h : execKeyMake code s = .next t) :
    t.trace = s.trace ++ makeItems s.cfg (resolve code false s).1 := by
  cases h
  simp [resolve_setLastCode, assertKey_eq]

/-- What KEY.BREAK adds to the trace (R117). -/
theorem execKeyBreak_trace {code : Byte} {s t : State} (h : execKeyBreak code s = .next t) :
    t.trace = s.trace ++ breakItems s.cfg (resolve code true s).1 := by
  cases h
  simp [resolve_setLastCode, releaseKey_eq]

/-- With no sentinel in the pair (R112) a make has all three of its parts. -/
theorem makeItems_of_compound (c : Config) {kc : KeyCode} (hp : kc.pri ≠ 0x00#8) (hq : kc.sec ≠ 0x00#8) :
    makeItems c kc = encItems c kc.pri true ++ postItems c kc.pri kc.sec ++ encItems c kc.sec true := by
  simp [makeItems, hp, hq]

/-- With no sentinel in the pair (R112) a break has both of its parts. -/
theorem breakItems_of_compound (c : Config) {kc : KeyCode} (hp : kc.pri ≠ 0x00#8) (hq : kc.sec ≠ 0x00#8) :
    breakItems c kc = encItems c kc.sec false ++ encItems c kc.pri false := by
  simp [breakItems, hp, hq]

/-- Between the two encodings of a make stand the settle delay and openings of the two modifiers, nothing else
(R118). -/
theorem mem_postItems {c : Config} {p q : Byte} {x : TraceItem} (hx : x ∈ postItems c p q) :
    x = .delay .tKeySettle ∨ x = .set c.capsAddr false ∨ x = .set c.symAddr false := by
  simp only [postItems, List.mem_append, List.mem_ite_nil_right, List.mem_singleton] at hx
  obtain (hx | ⟨-, hx⟩) | ⟨-, hx⟩ := hx
  · exact .inl hx
  · exact .inr (.inl hx)
  · exact .inr (.inr hx)

/-- Settles O37: the new items of a make and of a break are `makeItems` and `breakItems` of the pair resolved, which
for a compound key list the encodings in R42's two orders. -/
theorem encodingOrderOnTheBus : Obligations.EncodingOrderOnTheBus := by
  intro code s t rel kc hp hq h
  cases rel with
  | false =>
    refine ⟨fun _ => ⟨postItems s.cfg kc.pri kc.sec, ?_, fun _ => mem_postItems⟩, nofun⟩
    calc t.trace
        = s.trace ++ makeItems s.cfg kc := execKeyMake_trace h
      _ = _ := by rw [makeItems_of_compound s.cfg hp hq]; simp only [List.append_assoc]
  | true =>
    refine ⟨nofun, fun _ => ?_⟩
    calc t.trace
        = s.trace ++ breakItems s.cfg kc := execKeyBreak_trace h
      _ = _ := by rw [breakItems_of_compound s.cfg hp hq, List.append_assoc]

end Sys2Proof.Machine
end

section
/-! PROOFS. The statements of 40_frame_decoder.md about single operations: who writes the decoder registers (R89), and
what the two rising-edge operations do (R83, R84). -/

namespace Sys2Proof.Machine

/-! ### The writers of the decoder registers (R89) -/

theorem Completes.translates {s t : State} {o : Outcome} (hc : Completes s o) (h : o = .next t) : Translates s t := by
  obtain ⟨u, hu, hsu, -⟩ := hc
  cases hu.symm.trans h
  exact hsu

/-- Outside the frame decoder and BOOT every operation does only what `Translates` allows: it keeps the decoder
registers, `busy`, the input pins and the queue. -/
theorem exec_translates {i : Instr} {s t : State} (h : exec i s = .next t) (hboot : i ≠ .boot)
    (hf : ∀ d, i ≠ .edgeF d) (hr : ∀ d, i ≠ .edgeR d) (hrDone : ∀ d, i ≠ .edgeRDone d)
    (hframe : ∀ cells, i ≠ .frame cells) : Translates s t := by
  cases i with
  | boot => exact absurd rfl hboot
  | edgeF d => exact absurd rfl (hf d)
  | edgeR d => exact absurd rfl (hr d)
  | edgeRDone d => exact absurd rfl (hrDone d)
  | frame cells => exact absurd rfl (hframe cells)
  | keyEnc enc => exact (execKeyEnc_spec h).1
  | pfxE0 => exact (execPfxE0_completes s).translates h
  | pfxE0Dup => exact (execPfxE0Dup_completes s).translates h
  | pfxF0 => exact (execPfxF0_completes s).translates h
  | macroTrigger code => exact (execMacroTrigger_spec h).1
  | rshiftMake => exact (execRshiftMake_completes s).translates h
  | rshiftBreak => exact (execRshiftBreak_completes s).translates h
  | keyMake code => exact (execKeyMake_completes code s).translates h
  | keyBreak code => exact (execKeyBreak_completes code s).translates h
  | badCode code => exact (execBadCode_completes code s).translates h
  | swSet a closed => cases h; rw [swSet_eq]; exact translates_afterItem s _
  | swReset => cases h; rw [swReset_eq]; exact translates_afterItem s _
  | macroPlay seq => exact (play_spec h).1
  | recover cause => cases h; exact raiseDesync_translates cause s

/-- Settles O12: the operations left are those of the translator, the driver, the player and the recovery, and
`Translates` keeps the decoder registers. -/
theorem onlyDecoderAndBootSetDecoderRegisters : Obligations.OnlyDecoderAndBootSetDecoderRegisters :=
  fun _ _ _ h hboot hf hr hrDone hframe => (exec_translates h hboot hf hr hrDone hframe).decoder

/-! ### The rising-edge operations (R83, R84) -/

/-- Settles O14: from a count of at least 2 the subtraction does not wrap. -/
theorem edgeRCountsTheCell : Obligations.EdgeRCountsTheCell := by
  intro d s _ hcount
  have hge : 2 ≤ s.bitCount.toNat := by simpa [BitVec.le_def] using hcount
  refine ⟨s.bitCount - 1#4, ?_, execEdgeR_eq d s⟩
  rw [toNat_sub_one hge]
  omega

/-- The decoder registers `Decode` finds when it is handed the byte (R84). -/
theorem rearmed_decoderRegs (s : State) : decoderRegs (rearmed s) = (.falling, armedCount, s.acc) := rfl

/-- Settles O15: `Decode` completes under a legal configuration and leaves the re-armed registers, so they are those of
the next state. -/
theorem edgeRDoneHandsTheByteOver : Obligations.EdgeRDoneHandsTheByteOver := by
  intro d s hcfg _ _
  obtain ⟨u, hu⟩ := decodeCode_completes s.acc (s := rearmed s) hcfg
  have hregs : decoderRegs u = (.falling, armedCount, s.acc) :=
    (decodeCode_spec hu).1.decoder.trans (rearmed_decoderRegs s)
  obtain ⟨hphase, hcount, -⟩ : u.edgePhase = .falling ∧ u.bitCount = armedCount ∧ u.acc = s.acc := by
    simpa [decoderRegs] using hregs
  refine ⟨u, hu, hcount, hphase, ?_⟩
  rw [exec, execEdgeRDone_eq, hu, andThen_next]

end Sys2Proof.Machine
end

section
/-! PROOFS. The dispatch of `Decode` (41_translator.md R100): it executes the instruction of the byte's class, so the
order of the tests is that of `classify`, and the two tests on the configuration are read from the spec's tables. -/

namespace Sys2Proof.Machine

/-! ### The dispatch of `Decode` (R100) -/

/-- The trigger test of R68 looks for the code among the triggers of `MACROS`. -/
theorem isTrigger_iff_exists_mem (c : Config) (code : Byte) :
    isTrigger c code = true ↔ ∃ m ∈ c.macros, m.trigger = code := by
  simp only [isTrigger, macroFor, List.find?_isSome, beq_iff_eq]

/-- Both bounds of the key range are exclusive (R68). -/
theorem inKeyRange_iff (c : Config) (code : Byte) :
    inKeyRange c code = true ↔ c.codeLo < code ∧ code < c.codeHi := by
  simp only [inKeyRange, Bool.and_eq_true, decide_eq_true_eq]

/-- `Decode` executes one operation: the one the byte's class stands for, which the decoder answers with too. -/
theorem decodeCode_eq_exec_classify (code : Byte) (s : State) :
    decodeCode code s = exec ((classify s.selector code).instr code) s := by
  unfold decodeCode
  cases classify s.selector code <;> rfl

/-- Settles O23: the instruction of the byte's class is executed, and the class is found by one test after another, each
test taken here only where those before it fail. -/
theorem decodeRunsFirstMatchingOperation : Obligations.DecodeRunsFirstMatchingOperation := by
  intro code s
  simp only [← isTrigger_iff_exists_mem, ← inKeyRange_iff]
  rw [decodeCode_eq_exec_classify, State.selector, classify]
  by_cases hE0 : code = 0xE0#8
  · simp only [if_pos hE0]
    by_cases hext : s.ext = true <;> simp [CodeClass.instr, hext]
  simp only [if_neg hE0]
  by_cases hF0 : code = 0xF0#8
  · simp only [if_pos hF0, CodeClass.instr]
  simp only [if_neg hF0]
  by_cases htrigger : isTrigger s.cfg code = true
  · simp only [if_pos htrigger, CodeClass.instr]
  simp only [if_neg htrigger]
  by_cases hrshift : code = s.cfg.rshiftCode
  · simp only [if_pos hrshift]
    by_cases hts : s.ts = .released <;> simp [CodeClass.instr, hts]
  simp only [if_neg hrshift]
  by_cases hkey : inKeyRange s.cfg code = true
  · simp only [if_pos hkey]
    by_cases hts : s.ts = .released <;> simp [CodeClass.instr, hts]
  · simp only [if_neg hkey, CodeClass.instr]

end Sys2Proof.Machine
end

section
/-! PROOFS. The statements of 42_switch_driver.md about SW.SET: its next state is `afterItem` of the one transaction, so
the pin items and the pin levels of R143 are read from there. -/

namespace Sys2Proof.Machine

variable (a : Addr) (closed : Bool) (s : State)

/-! ### The pins after a `Set` transaction (R143) -/

@[simp] theorem afterItem_set_addr : (afterItem s (.set a closed)).addr = a := rfl
@[simp] theorem afterItem_set_data : (afterItem s (.set a closed)).data = dataLevel s.cfg closed := rfl
@[simp] theorem afterItem_set_strobe : (afterItem s (.set a closed)).strobe = s.cfg.strobeActive.inv := rfl
@[simp] theorem afterItem_set_resetLine : (afterItem s (.set a closed)).resetLine = s.resetLine := rfl

/-- SW.SET always completes, with the state after its transaction (R142). -/
theorem exec_swSet_eq : exec (.swSet a closed) s = .next (afterItem s (.set a closed)) := by
  rw [← swSet_eq]
  rfl

/-- Settles O44: SW.SET is the transaction `Set(a, closed)`, whose pin items are R143's six with the level of `DATA`
that stands for the commanded state (`dataLevel`). -/
theorem switchSetPinSequence : Obligations.SwitchSetPinSequence := by
  intro a closed s
  have hdata : dataLevel s.cfg closed = if closed = true then s.cfg.dataClosed else s.cfg.dataClosed.inv := rfl
  rw [← hdata]
  exact ⟨afterItem s (.set a closed), exec_swSet_eq a closed s, afterItem_pinTrace s (.set a closed),
    afterItem_set_addr a closed s, afterItem_set_data a closed s, afterItem_set_strobe a closed s,
    afterItem_set_resetLine a closed s⟩

end Sys2Proof.Machine
end

section
/-! PROOFS. The statements about the encodings (30_encoding.md): the decoder reads back what the encoder writes, and
answers only with well-formed instructions, whose item is the one it has read. -/

namespace Sys2Proof

/-! ### Decode of encode -/

/-- Settles O55: one round-trip lemma per constructor, those of the family Encoding. -/
theorem decodeOfEncodeIsIdentity : Obligations.DecodeOfEncodeIsIdentity := by
  intro sel i h
  cases i with
  | frame cells => exact Laws.Encoding.frame cells sel h
  | keyEnc enc => exact Laws.Encoding.keyEnc enc sel h
  | edgeF d => exact Laws.Encoding.edgeF d sel h
  | edgeR d => exact Laws.Encoding.edgeR d sel h
  | edgeRDone d => exact Laws.Encoding.edgeRDone d sel h
  | pfxE0 => exact Laws.Encoding.pfxE0 sel h
  | pfxE0Dup => exact Laws.Encoding.pfxE0Dup sel h
  | pfxF0 => exact Laws.Encoding.pfxF0 sel h
  | macroTrigger code => exact Laws.Encoding.macroTrigger code sel h
  | rshiftMake => exact Laws.Encoding.rshiftMake sel h
  | rshiftBreak => exact Laws.Encoding.rshiftBreak sel h
  | keyMake code => exact Laws.Encoding.keyMake code sel h
  | keyBreak code => exact Laws.Encoding.keyBreak code sel h
  | badCode code => exact Laws.Encoding.badCode code sel h
  | swSet a closed => exact Laws.Encoding.swSet a closed sel h
  | swReset => exact Laws.Encoding.swReset sel h
  | macroPlay seq => exact Laws.Encoding.macroPlay seq sel h
  | recover cause => exact Laws.Encoding.recover cause sel h
  | boot => exact Laws.Encoding.boot sel h

/-! ### Encode of decode -/

/-- What the class of a byte says of the byte and of `ext`, where the operation does not carry the byte (R68). -/
theorem classify_spec (sel : Selector) (code : Byte) :
    match classify sel code with
    | .pfxE0 => code = 0xE0#8 ∧ sel.ext = false
    | .pfxE0Dup => code = 0xE0#8 ∧ sel.ext = true
    | .pfxF0 => code = 0xF0#8
    | .rshiftMake | .rshiftBreak => code = sel.cfg.rshiftCode
    | .trigger | .keyMake | .keyBreak | .bad => True := by
  unfold classify
  by_cases hE0 : code = 0xE0#8
  · by_cases hext : sel.ext = true <;> simp [hE0, hext]
  by_cases hF0 : code = 0xF0#8
  · simp [hF0]
  by_cases htrigger : isTrigger sel.cfg code = true
  · simp [hE0, hF0, htrigger]
  by_cases hrshift : code = sel.cfg.rshiftCode
  · rw [hrshift] at hE0 hF0 htrigger
    by_cases hts : sel.ts = .released <;> simp [hrshift, hE0, hF0, htrigger, hts]
  · by_cases hkey : inKeyRange sel.cfg code = true <;> by_cases hts : sel.ts = .released <;>
      simp [hE0, hF0, htrigger, hrshift, hkey, hts]

/-- The item an operation of a scan-code class is encoded in is the byte classified (R68). -/
theorem encode_classify (sel : Selector) (code : Byte) :
    encode sel.cfg ((classify sel code).instr code) = ⟨.code, [code]⟩ := by
  have hspec := classify_spec sel code
  cases h : classify sel code <;> simp_all [CodeClass.instr, encode]

/-- The operation of a byte's class is well formed in the position it was classified in. -/
theorem classify_wf (sel : Selector) (code : Byte) : ((classify sel code).instr code).wf sel = true := by
  have hspec := classify_spec sel code
  cases h : classify sel code <;> rw [h] at hspec <;> simp only [CodeClass.instr, Instr.wf, h, decide_true]
  case pfxE0 => simp [hspec]
  case pfxE0Dup => exact hspec.2
  case rshiftMake => rw [← hspec]; simp [h]
  case rshiftBreak => rw [← hspec]; simp [h]

/-- A half-cell operation is well formed in the positions that select it (R85). -/
theorem edgeOp_wf_iff (sel : Selector) (op : EdgeOp) (d : Level) :
    (op.instr d).wf sel = true ↔ selectEdge sel = some op := by
  cases op <;> simp [EdgeOp.instr, Instr.wf]

/-- A clock-edge byte with no stray bit is the byte of its level. -/
theorem edgeByte_of_clean : ∀ b : Byte, hasStrayEdgeBits b = false → edgeByte (Level.ofBool (b.getLsbD 0)) = b := by
  decide

/-- A half-cell operation is encoded in its level and the direction it expects. -/
theorem encode_edgeOp (c : Config) (op : EdgeOp) (d : Level) :
    ∃ pol, encode c (op.instr d) = ⟨.edge pol, [edgeByte d]⟩ := by
  cases op <;> exact ⟨_, rfl⟩

/-- The operations of an edge item are those of its half-cell selection (R85). -/
theorem decodeEdge_eq_ok {sel : Selector} {b : Byte} {i : Instr} (h : decodeEdge sel b = .ok i) :
    hasStrayEdgeBits b = false ∧ ∃ op, selectEdge sel = some op ∧ i = op.instr (Level.ofBool (b.getLsbD 0)) := by
  unfold decodeEdge at h
  split at h
  · cases h
  · next hclean =>
    split at h
    · next op hop => cases h; exact ⟨by simpa using hclean, op, hop, rfl⟩
    · cases h

/-- The bytes of a frame are read from its cells again when no bit above the eleventh is set (R60). -/
theorem frame_bytes {lo hi : Byte} (h : hi.extractLsb' 3 5 = 0#5) :
    (hi.extractLsb' 0 3 ++ lo).extractLsb' 0 8 = lo ∧
      BitVec.zeroExtend 8 ((hi.extractLsb' 0 3 ++ lo).extractLsb' 8 3) = hi := by
  have hhigh (i : Nat) (h3 : ¬i < 3) (hi8 : i < 8) : hi.getLsbD i = false := by
    have hbit := congrArg (BitVec.getLsbD · (i - 3)) h
    have hlt : i - 3 < 5 := by omega
    have hidx : 3 + (i - 3) = i := by omega
    simpa [BitVec.getLsbD_extractLsb', hlt, hidx] using hbit
  constructor
  · refine BitVec.eq_of_getLsbD_eq fun i hlt => ?_
    simp only [BitVec.getLsbD_extractLsb', BitVec.getLsbD_append]
    simp [hlt]
  · refine BitVec.eq_of_getLsbD_eq fun i hlt => ?_
    simp only [BitVec.getLsbD_append, BitVec.getLsbD_extractLsb', BitVec.truncate_eq_setWidth, BitVec.getLsbD_setWidth]
    by_cases h3 : i < 3
    · simp [h3, hlt]
    · simp [h3, hhigh i h3 hlt]

theorem decodeFrame_eq_ok {lo hi : Byte} {i : Instr} (h : decodeFrame lo hi = .ok i) :
    hi.extractLsb' 3 5 = 0#5 ∧ i = .frame (hi.extractLsb' 0 3 ++ lo) := by
  unfold decodeFrame at h
  split at h
  · cases h
  · next hclean => cases h; exact ⟨not_not.mp hclean, rfl⟩

theorem decodeKeyEnc_eq_ok {sel : Selector} {b : Byte} {i : Instr} (h : decodeKeyEnc sel b = .ok i) :
    (Instr.keyEnc b).wf sel = true ∧ i = .keyEnc b := by
  unfold decodeKeyEnc at h
  split at h
  · cases h
  · next hok => cases h; exact ⟨by simpa [Instr.wf, or_iff_not_imp_left] using hok, rfl⟩

/-- A switch-bus byte with bit 7 clear is the byte of its fields (R64). -/
theorem swSetByte_of_clean :
    ∀ b : Byte, b.getLsbD 7 = false → swSetByte (b.extractLsb' 1 6) (b.getLsbD 0) = b := by
  decide

theorem decodeSwSet_eq_ok {b : Byte} {i : Instr} (h : decodeSwSet b = .ok i) :
    b.getLsbD 7 = false ∧ i = .swSet (b.extractLsb' 1 6) (b.getLsbD 0) := by
  unfold decodeSwSet at h
  split at h
  · cases h
  · next hclean => cases h; exact ⟨by simpa using hclean, rfl⟩

/-- A sequence is accepted exactly when it can be played (R161, R164). -/
theorem decodeSeq_eq_ok {sel : Selector} {seq : List Byte} {i : Instr} (h : decodeSeq sel seq = .ok i) :
    i = .macroPlay seq ∧ sel.cfg.playOk seq = true := by
  unfold decodeSeq at h
  split at h
  · cases h
  · next hterm =>
    split at h
    · cases h
    · next hrec =>
      cases h
      exact ⟨rfl, Machine.Config.playOk_iff.mpr ⟨by simpa using hterm, by simpa using hrec⟩⟩

/-- What the decoder accepts, port by port: a clock edge of the half-cell operation selected, or the item the operation is
encoded in. Every operation accepted is well formed. -/
theorem decode_eq_ok {sel : Selector} {x : Input} {i : Instr} (h : decode sel x = .ok i) :
    i.wf sel = true ∧
      ((∃ pol d op, x = ⟨.edge pol, [edgeByte d]⟩ ∧ selectEdge sel = some op ∧ i = op.instr d) ∨
        encode sel.cfg i = x) := by
  obtain ⟨port, bytes⟩ := x
  cases port with
  | edge pol =>
    match bytes, h with
    | [b], h =>
      obtain ⟨hclean, op, hop, rfl⟩ := decodeEdge_eq_ok h
      exact ⟨(edgeOp_wf_iff sel op _).mpr hop, .inl ⟨pol, _, op, by rw [edgeByte_of_clean b hclean], hop, rfl⟩⟩
  | code =>
    match bytes, h with
    | [b], h => cases h; exact ⟨classify_wf sel b, .inr (encode_classify sel b)⟩
  | frame =>
    match bytes, h with
    | [lo, hi], h =>
      obtain ⟨hclean, rfl⟩ := decodeFrame_eq_ok h
      obtain ⟨hlo, hhi⟩ := frame_bytes (lo := lo) hclean
      exact ⟨rfl, .inr (by rw [encode, hlo, hhi])⟩
  | keyEnc =>
    match bytes, h with
    | [b], h =>
      obtain ⟨hok, rfl⟩ := decodeKeyEnc_eq_ok h
      exact ⟨hok, .inr rfl⟩
  | swSet =>
    match bytes, h with
    | [b], h =>
      obtain ⟨hclean, rfl⟩ := decodeSwSet_eq_ok h
      exact ⟨rfl, .inr (by rw [encode, swSetByte_of_clean b hclean])⟩
  | swReset =>
    match bytes, h with
    | [], h => cases h; exact ⟨rfl, .inr rfl⟩
  | play =>
    obtain ⟨rfl, hplay⟩ := decodeSeq_eq_ok h
    exact ⟨hplay, .inr rfl⟩
  | recover cause =>
    match bytes, h with
    | [], h => cases h; exact ⟨rfl, .inr rfl⟩
  | boot =>
    match bytes, h with
    | [], h => cases h; exact ⟨rfl, .inr rfl⟩

/-- Settles O56: what the decoder accepts is well formed, and only an edge's item can differ from the operation's
encoding, in its direction. -/
theorem encodeOfDecodeIsTheItem : Obligations.EncodeOfDecodeIsTheItem := by
  intro sel x i h
  obtain ⟨hwf, ⟨pol, d, op, rfl, -, rfl⟩ | rfl⟩ := decode_eq_ok h
  · obtain ⟨pol', hitem⟩ := encode_edgeOp sel.cfg op d
    exact ⟨hwf, by rw [hitem], .inr ⟨pol, pol', rfl, by rw [hitem]⟩⟩
  · exact ⟨hwf, rfl, .inl rfl⟩

/-! ### Words of the spec -/

/-- Settles O57: seven fixed words, decoded one by one in the position after reset. -/
theorem tableWordsDecode : Obligations.TableWordsDecode := by
  refine ⟨?prefixE0, ?prefixF0, ?rightShift, ?trigger, ?key, ?reserved, ?frame⟩ <;> decide

end Sys2Proof
end

section
/-! PROOFS. BOOT (70_reset_and_hazards.md) and the invariant of the states between steps (10_state.md section 2): every
operation well formed in its position keeps it. -/

namespace Sys2Proof.Machine

/-! ### Reset and boot -/

/-- Settles O1: the fields of `State.bootOf` are the values of the table; an idle line is not at its active level. -/
theorem resetRegisterValues : Obligations.ResetRegisterValues := by
  intro c s
  refine ⟨rfl, rfl, rfl, rfl, rfl, rfl, rfl, rfl, rfl, rfl, rfl, rfl, Level.inv_ne _, Level.inv_ne _,
    Memory.closedAt_allOpen, ?_⟩
  rintro rfl
  rfl

/-- Settles O2: the post-boot registers, and no closed point. -/
theorem resetMeetsInvariant : Obligations.ResetMeetsInvariant :=
  ⟨rfl, rfl, rfl, rfl, Memory.allOpen_wf⟩

/-- The post-boot state as BOOT leaves it (R192, log 18): what boot does not write is kept. -/
def booted (s : State) : State :=
  { State.bootOf s.cfg with
    addr := s.addr, data := s.data, ps2Clk := s.ps2Clk, ps2Dat := s.ps2Dat, inputs := s.inputs,
    trace := s.trace ++ [.reset]
    pinTrace := s.pinTrace ++
      [.strobe s.cfg.strobeActive.inv, .resetLine s.cfg.resetActive.inv, .resetLine s.cfg.resetActive,
        .delay .tResetPulse, .resetLine s.cfg.resetActive.inv] }

/-- A write of `STROBE` writes no other register but the array, which may latch a point (R150). -/
theorem driveStrobe_eq (l : Level) (s : State) :
    driveStrobe l s = ((s.setSw (driveStrobe l s).sw).setStrobe l).emitPin (.strobe l) := by
  unfold driveStrobe latchPoint
  dsimp only
  split <;> rfl

/-- A write of the idle level to `RESETLINE` opens no point (R151). -/
theorem driveResetLine_idle {l : Level} {s : State} (h : l = s.cfg.resetActive.inv) :
    driveResetLine l s = (s.setResetLine l).emitPin (.resetLine l) := by
  subst h
  simp [driveResetLine, Level.inv_ne]

/-- BOOT in one equation (R192): whatever the idle strobe latched, the reset pulse opens it. -/
theorem execBoot_eq (s : State) : execBoot s = .next (booted s) := by
  simp only [execBoot, driveStrobe_cfg, State.setIrqEn_cfg, swReset_eq]
  rw [driveResetLine_idle (by simp), driveStrobe_eq]
  simp [booted, State.bootOf, bootTranslator, bootDecoder, clearLatches, afterItem, pinsOf, applyItem, Memory.allOpen,
    State.setIrqEn, State.setBusy]

/-- Settles O3: the state after BOOT is `booted`, field by field. -/
theorem bootReachesPostBootState : Obligations.BootReachesPostBootState :=
  fun s => ⟨booted s, execBoot_eq s, rfl, rfl⟩

/-! ### Every operation keeps the invariant in the positions it is well formed in -/

theorem booted_inv (s : State) : Inv (booted s) :=
  ⟨rfl, rfl, rfl, rfl, Memory.allOpen_wf⟩

theorem takeItem_inv {s : State} (h : Inv s) (x : Input) (rest : List Input) : Inv (takeItem x rest s) := by
  rw [takeItem_eq]
  exact ⟨h.position, h.idle, h.strobeIdle, h.resetIdle, h.memory⟩

/-- What `Moves` says of the bus is enough for the bus part of the invariant. -/
theorem Moves.inv {s t : State} (hm : Moves s t) (h : Inv s) (hposition : positionOk t.bitCount = true)
    (hidle : t.busy = false) : Inv t where
  position := hposition
  idle := hidle
  strobeIdle := by
    rw [hm.cfg]
    exact hm.strobe.elim (fun hkept => hkept.trans h.strobeIdle) id
  resetIdle := by
    rw [hm.cfg]
    exact hm.resetLine.elim (fun hkept => hkept.trans h.resetIdle) id
  memory := by
    obtain ⟨new, -, hsw, -⟩ := hm.bus
    rw [hsw]
    exact applyTrace_wf h.memory new

theorem Translates.bitCount {s t : State} (ht : Translates s t) : t.bitCount = s.bitCount :=
  congrArg (·.2.1) ht.decoder

theorem Translates.edgePhase {s t : State} (ht : Translates s t) : t.edgePhase = s.edgePhase :=
  congrArg (·.1) ht.decoder

theorem Translates.acc {s t : State} (ht : Translates s t) : t.acc = s.acc :=
  congrArg (·.2.2) ht.decoder

theorem Translates.inv {s t : State} (ht : Translates s t) (h : Inv s) : Inv t :=
  ht.moves.inv h (ht.bitCount ▸ h.position) (ht.busy.trans h.idle)

/-- The operations outside `Translates` are BOOT, the half-cell operations and FRAME. -/
theorem exec_cases {i : Instr} {s t : State} (h : exec i s = .next t) :
    i = .boot ∨ (∃ (op : EdgeOp) (d : Level), i = op.instr d) ∨ (∃ cells, i = .frame cells) ∨ Translates s t := by
  cases i with
  | boot => exact .inl rfl
  | edgeF d => exact .inr (.inl ⟨.f, d, rfl⟩)
  | edgeR d => exact .inr (.inl ⟨.r, d, rfl⟩)
  | edgeRDone d => exact .inr (.inl ⟨.rDone, d, rfl⟩)
  | frame cells => exact .inr (.inr (.inl ⟨cells, rfl⟩))
  | _ => exact .inr (.inr (.inr (exec_translates h nofun nofun nofun nofun nofun)))

/-- The half-cell operation that the position selects is the decoder step (R85). -/
theorem exec_edgeOp {s : State} {op : EdgeOp} (h : selectEdge s.selector = some op) (d : Level) :
    exec (op.instr d) s = decoderStep d s := by
  rw [decoderStep, h]
  cases op <;> rfl

theorem exec_inv {i : Instr} {s t : State} (hinv : Inv s) (hwf : i.wf s.selector = true) (h : exec i s = .next t) :
    Inv t := by
  obtain rfl | ⟨op, d, rfl⟩ | ⟨cells, rfl⟩ | htrans := exec_cases h
  · cases (execBoot_eq s).symm.trans h
    exact booted_inv s
  · rw [exec_edgeOp ((edgeOp_wf_iff _ op d).mp hwf)] at h
    obtain ⟨hmoves, hposition, hidle, -⟩ := decoderStep_spec h
    exact hmoves.inv hinv hposition hidle
  · obtain ⟨hmoves, hposition, hidle, -⟩ := deliverCells_spec (ds := frameCells cells) h
    exact hmoves.inv hinv (hposition hinv.position) (hidle hinv.idle)
  · exact htrans.inv hinv

/-- Settles O4: an idle step and a dropped edge change no register of the invariant, and the operation decoded is well
formed in the position it is executed in. -/
theorem stepKeepsInvariant : Obligations.StepKeepsInvariant := by
  intro s t hinv h
  obtain ⟨-, ⟨-, rfl⟩ | ⟨x, rest, -, ⟨-, rfl⟩ | ⟨i, -, hdecode, hexec⟩⟩⟩ := step_cases h
  · exact hinv
  · exact takeItem_inv hinv x rest
  · refine exec_inv (takeItem_inv hinv x rest) ?_ hexec
    rw [takeItem_selector]
    exact (decode_eq_ok hdecode).1

end Sys2Proof.Machine
end

section
/-! PROOFS. What a step does with the item at the head of the queue (00_scope.md section 5, 60_exceptions.md sections 1
and 5), what it adds to the two traces, and who writes the interrupt enable. -/

namespace Sys2Proof.Machine

/-! ### Edges that are dropped, and edges that are delivered (R80) -/

theorem deliverable_iff (s : State) : deliverable s = true ↔ s.irqEn = true ∧ s.busy = false := by
  simp [deliverable]

theorem not_deliverable_iff (s : State) : deliverable s = false ↔ s.irqEn = false ∨ s.busy = true := by
  simp [deliverable, or_iff_not_imp_left]

/-- Only a clock edge is dropped, and only one that cannot be delivered. -/
theorem isDropped_eq_false {x : Input} {s : State}
    (h : (∃ pol, x.port = .edge pol) → deliverable s = true) : isDropped x s = false := by
  unfold isDropped
  split
  · next pol b hport hbytes => simp [h ⟨pol, hport⟩]
  · rfl

theorem isDropped_edge (pol : Polarity) (d : Level) (s : State) :
    isDropped ⟨.edge pol, [edgeByte d]⟩ s = !deliverable s := by
  simp [isDropped, Laws.Encoding.edgeByte_clean]

theorem takeItem_edge (pol : Polarity) (d : Level) (rest : List Input) (s : State) :
    takeItem ⟨.edge pol, [edgeByte d]⟩ rest s = { s with inputs := rest, ps2Clk := pol.level, ps2Dat := d } := by
  simp only [takeItem, Laws.Encoding.edgeByte_level]
  rfl

/-- An item that is no clock edge moves no pin. -/
theorem takeItem_of_not_edge {x : Input} (rest : List Input) (s : State) (h : ∀ pol, x.port ≠ .edge pol) :
    takeItem x rest s = { s with inputs := rest } := by
  unfold takeItem
  split
  · next pol b hport hbytes => exact absurd hport (h pol)
  · rfl

/-! ### The step -/

/-- Settles O5: the item is not dropped, so the step is `exec` of the operation decoded, which is well formed. -/
theorem stepRunsDecodedInstruction : Obligations.StepRunsDecodedInstruction := by
  intro s x rest i hcfg hinputs hdecode hdeliver
  have hkept : isDropped x s = false :=
    isDropped_eq_false fun hedge => (deliverable_iff s).mpr (hdeliver hedge)
  refine ⟨(decode_eq_ok hdecode).1, step_of_decode hcfg hinputs hkept hdecode, takeItem_eq x rest s,
    takeItem_of_not_edge rest s, ?_⟩
  rintro pol b rfl
  rfl

theorem step_of_empty {s : State} (hcfg : s.cfg.wf = true) (hinputs : s.inputs = []) : step s = .next s := by
  unfold step fetch
  simp [hcfg, hinputs]

theorem step_of_illFormedConfig {s : State} (hcfg : s.cfg.wf = false) : step s = .refused .illFormedConfig := by
  unfold step fetch
  simp [hcfg]

theorem step_of_undecodable {s : State} {x : Input} {rest : List Input} {e : DecodeError} (hcfg : s.cfg.wf = true)
    (hinputs : s.inputs = x :: rest) (hdecode : decode s.selector x = .error e) (hkept : isDropped x s = false) :
    step s = .refused (.undecodable e) := by
  unfold step fetch
  simp [hcfg, hinputs, hdecode, hkept]

/-- Settles O6: the three answers of the fetch that run no operation. -/
theorem stepIdlesOrRefuses : Obligations.StepIdlesOrRefuses :=
  ⟨fun _ => step_of_empty, fun _ => step_of_illFormedConfig, fun _ _ _ _ => step_of_undecodable⟩

/-- An operation well formed in a legal position completes under a legal configuration. -/
theorem exec_completes {i : Instr} {s : State} (hcfg : s.cfg.wf = true) (hposition : positionOk s.bitCount = true)
    (hwf : i.wf s.selector = true) : ∃ t, exec i s = .next t := by
  cases i with
  | frame cells => exact deliverCells_completes (frameCells cells) hcfg hposition
  | edgeF d => exact ⟨_, execEdgeF_eq d s⟩
  | edgeR d => exact ⟨_, execEdgeR_eq d s⟩
  | edgeRDone d => exact execEdgeRDone_completes d hcfg
  | keyEnc enc =>
    have hok : (isZeroAddrMod enc && !s.cfg.allowZeroAddrMod) = false := by
      simpa [Instr.wf, State.selector, or_iff_not_imp_left] using hwf
    rw [exec, execKeyEnc, hok, if_neg Bool.false_ne_true]
    split_ifs <;> exact ⟨_, rfl⟩
  | macroTrigger code =>
    have hclass : classify s.selector code = .trigger := by simpa [Instr.wf] using hwf
    exact execMacroTrigger_completes hcfg ((classify_trigger_iff _ _).mp hclass).2.2
  | macroPlay seq =>
    obtain ⟨hterminated, hentries⟩ := Config.playOk_iff.mp hwf
    exact play_completes hterminated hentries
  | _ => exact ⟨_, rfl⟩

/-- Settles O7: with an empty queue the machine idles; an item that decodes is a dropped edge, or its operation is well
formed in a legal position and completes. -/
theorem stepAlwaysGoesOn : Obligations.StepAlwaysGoesOn := by
  rintro s hcfg hinv (hempty | ⟨x, rest, i, hinputs, hdecode⟩)
  · exact ⟨s, step_of_empty hcfg hempty⟩
  · cases hdropped : isDropped x s with
    | true => exact ⟨_, step_of_dropped hcfg hinputs hdropped⟩
    | false =>
      rw [step_of_decode hcfg hinputs hdropped hdecode]
      exact exec_completes (by rw [takeItem_cfg, hcfg]) (takeItem_inv hinv x rest).position
        (by rw [takeItem_selector]; exact (decode_eq_ok hdecode).1)

/-- Settles O17: a dropped edge is only taken from the queue. -/
theorem undeliverableEdgeIsDropped : Obligations.UndeliverableEdgeIsDropped := by
  intro s pol d rest hcfg hmasked hinputs
  have hdropped : isDropped ⟨.edge pol, [edgeByte d]⟩ s = true := by
    rw [isDropped_edge, (not_deliverable_iff s).mpr hmasked, Bool.not_false]
  rw [step_of_dropped hcfg hinputs hdropped, takeItem_edge]

/-- A position outside 1..11, as its two ranges (U12). -/
theorem positionOk_eq_false {n : BitVec 4} (h : n = 0#4 ∨ 11#4 < n) : positionOk n = false := by
  rw [← Bool.not_eq_true, positionOk_iff]
  rcases h with rfl | h
  · decide
  · rw [BitVec.lt_def] at h
    exact fun hlegal => absurd hlegal.2 (Nat.not_le.mpr h)

/-- A position outside 1..11 selects no half-cell operation (R85, U12). -/
theorem selectEdge_eq_none {sel : Selector} (h : sel.bitCount = 0#4 ∨ 11#4 < sel.bitCount) : selectEdge sel = none := by
  simp [selectEdge, positionOk_eq_false h]

/-- Settles O19: the delivered edge selects no operation, and the decoder names the reason. -/
theorem unreachablePositionIsRefused : Obligations.UnreachablePositionIsRefused := by
  intro s pol d rest hcfg hirq hbusy hposition hinputs
  refine step_of_undecodable hcfg hinputs ?_ ?_
  · have hnone : selectEdge s.selector = none := selectEdge_eq_none hposition
    simp [decode, decodeEdge, Laws.Encoding.edgeByte_clean, hnone]
  · rw [isDropped_edge, (deliverable_iff s).mpr ⟨hirq, hbusy⟩, Bool.not_true]

/-! ### The two traces -/

/-- The item of BOOT is the power-on item. -/
theorem port_of_decode_boot {sel : Selector} {x : Input} (h : decode sel x = .ok .boot) : x.port = .boot := by
  obtain ⟨-, ⟨pol, d, op, -, -, hop⟩ | rfl⟩ := decode_eq_ok h
  · cases op <;> cases hop
  · rfl

/-- Taking an item puts nothing on the bus. -/
theorem takeItem_bus (x : Input) (rest : List Input) (s : State) :
    (takeItem x rest s).trace = s.trace ∧ (takeItem x rest s).pinTrace = s.pinTrace ∧ (takeItem x rest s).sw = s.sw := by
  rw [takeItem_eq]
  exact ⟨rfl, rfl, rfl⟩

/-- What a step that goes on does to the bus: nothing, or what its operation does. -/
theorem step_bus {s t : State} (h : step s = .next t) :
    (∃ new : List TraceItem, t.trace = s.trace ++ new ∧ t.sw = applyTrace s.sw new ∧
      t.pinTrace = s.pinTrace ++ new.flatMap (pinsOf s.cfg)) ∨
    (∃ x rest, s.inputs = x :: rest ∧ x.port = .boot) ∧ t.trace = s.trace ++ [.reset] ∧ t.sw = Memory.allOpen := by
  obtain ⟨-, ⟨-, rfl⟩ | ⟨x, rest, hinputs, htaken⟩⟩ := step_cases h
  · exact .inl ⟨[], by simp⟩
  obtain ⟨htrace, hpins, hsw⟩ := takeItem_bus x rest s
  obtain ⟨-, rfl⟩ | ⟨i, -, hdecode, hexec⟩ := htaken
  · exact .inl ⟨[], by simp [htrace, hpins, hsw]⟩
  by_cases hboot : i = .boot
  · subst hboot
    cases (execBoot_eq _).symm.trans hexec
    exact .inr ⟨⟨x, rest, hinputs, port_of_decode_boot hdecode⟩, by rw [← htrace]; rfl, rfl⟩
  · obtain ⟨new, hnew⟩ := (exec_moves hboot hexec).bus
    rw [htrace, hpins, hsw, takeItem_cfg] at hnew
    exact .inl ⟨new, hnew⟩

/-- Settles O9: outside BOOT the array is the fold by `Moves`; BOOT's one item opens every point, as BOOT does. -/
theorem stepSwitchesAreFoldOfTrace : Obligations.StepSwitchesAreFoldOfTrace := by
  intro s t h
  obtain ⟨new, htrace, hsw, -⟩ | ⟨-, htrace, hsw⟩ := step_bus h
  · exact ⟨new, htrace, hsw⟩
  · exact ⟨[.reset], htrace, hsw⟩

/-- Settles O10: outside BOOT both traces grow by the same items. -/
theorem pinTraceRefinesTransactionTrace : Obligations.PinTraceRefinesTransactionTrace := by
  intro s t h hnotBoot
  obtain ⟨new, htrace, -, hpins⟩ | ⟨⟨x, rest, hinputs, hboot⟩, -⟩ := step_bus h
  · exact ⟨new, htrace, hpins⟩
  · exact absurd hboot (hnotBoot x rest hinputs)

/-! ### The interrupt enable -/

theorem Completes.irqEn {s t : State} {o : Outcome} (hc : Completes s o) (h : o = .next t) : t.irqEn = s.irqEn := by
  obtain ⟨u, hu, -, hirq⟩ := hc
  cases hu.symm.trans h
  exact hirq

/-- What each operation does to the interrupt enable: BOOT and a playback set it (R161, R192), EDGE.R.DONE and FRAME keep
it or start a playback, every other operation keeps it. -/
def IrqEnAfter (s t : State) : Instr → Prop
  | .boot | .macroPlay _ | .macroTrigger _ => t.irqEn = true
  | .edgeRDone _ | .frame _ => t.irqEn = s.irqEn ∨ t.irqEn = true
  | _ => t.irqEn = s.irqEn

theorem exec_irqEn {i : Instr} {s t : State} (h : exec i s = .next t) : IrqEnAfter s t i := by
  cases i with
  | boot => cases (execBoot_eq s).symm.trans h; rfl
  | macroPlay seq => exact (play_spec h).2
  | macroTrigger code => exact (execMacroTrigger_spec h).2
  | edgeRDone d => exact (execEdgeRDone_spec (d := d) h).2.2.2
  | frame cells => exact (deliverCells_spec (ds := frameCells cells) h).2.2.2
  | edgeF d => cases (execEdgeF_eq d s).symm.trans h; rfl
  | edgeR d => cases (execEdgeR_eq d s).symm.trans h; rfl
  | keyEnc enc => exact (execKeyEnc_spec h).2
  | pfxE0 => exact (execPfxE0_completes s).irqEn h
  | pfxE0Dup => exact (execPfxE0Dup_completes s).irqEn h
  | pfxF0 => exact (execPfxF0_completes s).irqEn h
  | rshiftMake => exact (execRshiftMake_completes s).irqEn h
  | rshiftBreak => exact (execRshiftBreak_completes s).irqEn h
  | keyMake code => exact (execKeyMake_completes code s).irqEn h
  | keyBreak code => exact (execKeyBreak_completes code s).irqEn h
  | badCode code => exact (execBadCode_completes code s).irqEn h
  | swSet a closed => cases (exec_swSet_eq a closed s).symm.trans h; rfl
  | swReset => cases h; exact (congrArg State.irqEn (swReset_eq s) :)
  | recover cause => cases h; exact (congrArg State.irqEn (raiseDesync_eq s cause) :)

/-- Settles O11: the three clauses are read from `exec_irqEn`, one constructor at a time. -/
theorem interruptEnableWriters : Obligations.InterruptEnableWriters := by
  intro i s t h
  have hirq := exec_irqEn h
  refine ⟨?_, fun hplay htrigger hboot hdone hframe => ?_, ?_⟩
  · cases i with
    | boot | macroPlay _ | macroTrigger _ => exact .inr hirq
    | edgeRDone _ | frame _ => exact hirq
    | _ => exact .inl hirq
  · cases i with
    | boot => exact absurd rfl hboot
    | macroPlay seq => exact absurd rfl (hplay seq)
    | macroTrigger code => exact absurd rfl (htrigger code)
    | edgeRDone d => exact absurd rfl (hdone d)
    | frame cells => exact absurd rfl (hframe cells)
    | _ => exact hirq
  · rintro (⟨seq, rfl⟩ | ⟨code, rfl⟩ | rfl) <;> exact hirq

end Sys2Proof.Machine
end

section
/-! PROOFS. The switch space (20_memory.md, 42_switch_driver.md): the transactions of the driver, the fold of a trace
point by point, and the canonical form. -/

namespace Sys2Proof.Machine

/-! ### The driver's two operations -/

/-- Settles O43: SW.SET is the transaction `Set(a, closed)`, which writes one point. -/
theorem switchSetWritesOnePoint : Obligations.SwitchSetWritesOnePoint := fun a closed s =>
  ⟨afterItem s (.set a closed), exec_swSet_eq a closed s, rfl, Memory.closedAt_setPoint_same s.sw a closed,
    fun _ => Memory.read_setPoint_other s.sw a closed⟩

/-- Settles O45: SW.RESET is the transaction `Reset`, which opens every point. -/
theorem switchResetOpensAllPoints : Obligations.SwitchResetOpensAllPoints := fun s =>
  ⟨afterItem s .reset, congrArg Host.Outcome.next (swReset_eq s), rfl, Memory.read_allOpen⟩

/-- Settles O46: the second write of a point finds it written; both traces still grow. -/
theorem switchSetIsIdempotentOnTheArray : Obligations.SwitchSetIsIdempotentOnTheArray := by
  intro a closed s t u ht hu
  cases (exec_swSet_eq a closed s).symm.trans ht
  cases (exec_swSet_eq a closed _).symm.trans hu
  refine ⟨Memory.setPoint_setPoint s.sw a closed closed, ?_, ?_⟩
  · simp
  · simp [pinsOf]

/-! ### The fold of a trace, point by point (R152) -/

theorem drives_cons (x : TraceItem) (items : List TraceItem) (a : Nat) :
    drives (x :: items) a ↔ (∃ (b : Addr) (c : Bool), x = .set b c ∧ b.toNat = a) ∨ drives items a := by
  simp only [drives, List.mem_cons, eq_comm (a := x), or_and_right, exists_or]

/-- With no `Reset` among the items an address that none of them drives reads as before. -/
theorem read_applyTrace_of_not_drives {items : List TraceItem} {a : Nat} (hreset : TraceItem.reset ∉ items)
    (hdrives : ¬drives items a) (m : Memory) : (applyTrace m items).read a = m.read a := by
  induction items generalizing m with
  | nil => rfl
  | cons x xs ih =>
    rw [drives_cons, not_or] at hdrives
    obtain ⟨hx, hxs⟩ := hdrives
    rw [applyTrace_cons, ih (fun hmem => hreset (List.mem_cons_of_mem x hmem)) hxs]
    cases x with
    | reset => exact absurd List.mem_cons_self hreset
    | set b c => exact Memory.read_setPoint_other m b c fun hab => hx ⟨b, c, rfl, hab.symm⟩
    | delay d => rfl

/-- A point that no `Set` names is not driven. -/
theorem not_drives_of_forall_not_mem {items : List TraceItem} {a : Addr} (h : ∀ c, TraceItem.set a c ∉ items) :
    ¬drives items a.toNat := by
  rintro ⟨b, c, hmem, hab⟩
  cases BitVec.eq_of_toNat_eq hab
  exact h c hmem

theorem closedAt_applyTrace_of_not_drives {items : List TraceItem} {a : Addr} (hreset : TraceItem.reset ∉ items)
    (hset : ∀ c, TraceItem.set a c ∉ items) (m : Memory) : (applyTrace m items).closedAt a = m.closedAt a := by
  rw [Memory.closedAt, read_applyTrace_of_not_drives hreset (not_drives_of_forall_not_mem hset), Memory.closedAt]

/-- Settles O48: the items after the last one that matters leave the point alone. -/
theorem traceFoldPointByPoint : Obligations.TraceFoldPointByPoint := by
  intro m before after a hreset hset
  have hkept := closedAt_applyTrace_of_not_drives hreset hset
  refine ⟨fun c => ?_, ?_, hkept m⟩
  · rw [applyTrace_append, applyTrace_append, hkept]
    exact Memory.closedAt_setPoint_same _ a c
  · rw [applyTrace_append, applyTrace_append, hkept]
    exact Memory.closedAt_allOpen a

/-! ### The canonical form (log 16) -/

/-- In canonical form an address is listed exactly when it does not read as open. -/
theorem Memory.mem_iff_read {m : Memory} (h : ∀ x ∈ m, x.1 < 64 ∧ x.2 = 0x01#8) (a : Nat) :
    (a, 0x01#8) ∈ m ↔ m.read a ≠ 0x00#8 := by
  induction m with
  | nil => simp
  | cons x m ih =>
    have hx : x.2 = 0x01#8 := (h x List.mem_cons_self).2
    have hm := ih fun y hy => h y (List.mem_cons_of_mem x hy)
    rw [Memory.read_cons, List.mem_cons, hm]
    by_cases ha : a = x.1
    · simp [Prod.ext_iff, ha, hx]
    · simp [Prod.ext_iff, ha]

/-- The cells of a canonical memory are the closed points. -/
theorem Memory.mem_iff_closedAt {m : Memory} (h : m.wf) (x : Host.Cell) :
    x ∈ m ↔ ∃ a : Addr, x = (a.toNat, 0x01#8) ∧ m.closedAt a = true := by
  have hread (a : Addr) : m.closedAt a = true ↔ (a.toNat, 0x01#8) ∈ m := by
    rw [Memory.mem_iff_read h.2, Memory.closedAt, bne_iff_ne]
  constructor
  · intro hx
    obtain ⟨hlt, hv⟩ := h.2 x hx
    have hcell : x = ((BitVec.ofNat 6 x.1).toNat, 0x01#8) :=
      Prod.ext (by rw [BitVec.toNat_ofNat, Nat.mod_eq_of_lt hlt]) hv
    exact ⟨BitVec.ofNat 6 x.1, hcell, (hread _).mpr (hcell ▸ hx)⟩
  · rintro ⟨a, rfl, hclosed⟩
    exact (hread a).mp hclosed

/-- Settles O47: two canonical memories whose points agree list the same cells, and both list them by rising address. -/
theorem canonicalSwitchSpacesAreDetermined : Obligations.CanonicalSwitchSpacesAreDetermined := by
  intro m m' h h' hpoints
  have : Std.Irrefl fun x y : Host.Cell => x.1 < y.1 := ⟨fun x => Nat.lt_irrefl x.1⟩
  have : Std.Antisymm fun x y : Host.Cell => x.1 < y.1 := ⟨fun _ _ hxy hyx => absurd hyx (Nat.lt_asymm hxy)⟩
  refine h.1.eq_of_mem_iff h'.1 fun x => ?_
  rw [Memory.mem_iff_closedAt h, Memory.mem_iff_closedAt h']
  simp only [hpoints]

end Sys2Proof.Machine
end

section
/-! PROOFS. The key path (41_translator.md sections 5 to 7 and 9): the front end, the items of a make and of a break, and
the latches after both. -/

namespace Sys2Proof.Machine

/-! ### The front end (R109 to R113) -/

theorem punctDelta_value_ne_zero (d : PunctDelta) : d.value ≠ 0 ↔ d ≠ .none := by
  cases d <;> decide

theorem digitDelta_value_ne_zero (d : DigitDelta) : d.value ≠ 0 ↔ d ≠ .none := by
  cases d <;> decide

/-- The byte addition of the remaps is addition modulo 256 (R8). -/
theorem toNat_add8 (b : Byte) (d : Int) : ((add8 b d).toNat : Int) = ((b.toNat : Int) + d) % 256 := by
  simp [add8, BitVec.toNat_ofInt]
  omega

theorem punctGate_iff (s : State) (code : Byte) :
    punctGate s code = true ↔
      (punctDeltaAt s.cfg s.ext code).value ≠ 0 ∧ (s.rsHeld = true ∨ s.rsPunctApplied = true) := by
  simp [punctGate, punctDelta_value_ne_zero]

theorem isRelocatable_iff (c : Config) (kc : KeyCode) :
    isRelocatable c kc = true ↔ (digitDeltaAt c kc.pri).value ≠ 0 ∨ (digitDeltaAt c kc.sec).value ≠ 0 := by
  simp [isRelocatable, digitDelta_value_ne_zero]

theorem digitGate_iff (s : State) (rel : Bool) :
    digitGate s rel = true ↔ if rel = true then s.digitApplied = true else s.symHeld = true := by
  cases rel <;> simp [digitGate]

/-- A code that is the remapped one under the gate, and the code itself otherwise, is `remappedCode`. -/
theorem eq_remappedCode {s : State} {code code1 : Byte}
    (hgate : punctGate s code = true →
      (code1.toNat : Int) = ((code.toNat : Int) + (punctDeltaAt s.cfg s.ext code).value) % 256)
    (hkept : ¬punctGate s code = true → code1 = code) : code1 = remappedCode s code := by
  unfold remappedCode
  split
  · next h =>
    apply BitVec.eq_of_toNat_eq
    have := toNat_add8 code (punctDeltaAt s.cfg s.ext code).value
    have := hgate h
    omega
  · next h => exact hkept h

/-- Settles O34: the code looked up is `remappedCode`, and `resolve_eq` writes the pair and the registers out. -/
theorem resolveRemapsLooksUpAndRelocates : Obligations.ResolveRemapsLooksUpAndRelocates := by
  intro code rel s d punct code1 hpunct hplain kc moved
  have hgate : punctGate s code = true ↔ punct := punctGate_iff s code
  have hcode1 : code1 = remappedCode s code :=
    eq_remappedCode (fun h => hpunct (hgate.mp h)) (fun h => hplain (fun hp => h (hgate.mpr hp)))
  have hkc : lookedUp s code = kc := by rw [lookedUp, ← hcode1]; rfl
  have hmoved : relocates s code rel = true ↔ moved := by
    rw [relocates, hkc, Bool.and_eq_true, digitGate_iff, isRelocatable_iff]
  refine ⟨_, _, _, resolve_eq s code rel, fun h => ?_, fun h => ?_, fun h => ?_, fun h => ?_⟩
  · rw [if_pos (hgate.mpr h)]
  · rw [if_neg (h ∘ hgate.mp)]
  · simp only [if_pos (hmoved.mpr h), hkc]
    exact ⟨trivial, toNat_add8 _ _, toNat_add8 _ _⟩
  · simp only [if_neg (h ∘ hmoved.mp), hkc, and_self]

/-! ### The state after a key (R114, R117) -/

theorem resolve_snd (code : Byte) (rel : Bool) (s : State) :
    (resolve code rel s).2 =
      { s with ext := false
               rsPunctApplied := (resolve code rel s).2.rsPunctApplied
               digitApplied := (resolve code rel s).2.digitApplied } := by
  rw [resolve_eq]

theorem afterItems_setTs (items : List TraceItem) (s : State) (v : TransitionState) :
    afterItems items (s.setTs v) = (afterItems items s).setTs v := by
  induction items generalizing s with
  | nil => rfl
  | cons x xs ih => exact ih (afterItem s x)

/-- The registers after the front end of a key and its end: what a make (`rel = false`) and a break write beside the bus. -/
def keyRegs (code : Byte) (rel : Bool) (symHeld : Bool) (s : State) : State :=
  { s with lastCode := code, ext := false, ts := if rel then .idle else .pressed,
           rsPunctApplied := (resolve code rel s).2.rsPunctApplied,
           digitApplied := (resolve code rel s).2.digitApplied, symHeld := symHeld }

/-- KEY.MAKE in one equation (R114). -/
theorem execKeyMake_eq (code : Byte) (s : State) :
    execKeyMake code s = .next (afterItems (makeItems s.cfg (resolve code false s).1)
      (keyRegs code false (s.symHeld || touchesSymKey s.cfg (resolve code false s).1) s)) := by
  simp only [execKeyMake, assertKey_eq, resolve_setLastCode]
  rw [← afterItems_setTs, resolve_snd]
  rfl

/-- KEY.BREAK in one equation (R117). -/
theorem execKeyBreak_eq (code : Byte) (s : State) :
    execKeyBreak code s = .next (afterItems (breakItems s.cfg (resolve code true s).1)
      (keyRegs code true (s.symHeld && !touchesSymKey s.cfg (resolve code true s).1) s)) := by
  simp only [execKeyBreak, releaseKey_eq, resolve_setLastCode]
  rw [← afterItems_setTs, resolve_snd]
  rfl

/-! ### The items of a key -/

theorem mem_encItems {c : Config} {enc : Byte} {closed : Bool} {x : TraceItem} (hx : x ∈ encItems c enc closed) :
    ∃ a, x = .set a closed := by
  simp only [encItems, List.mem_append, List.mem_ite_nil_right, List.mem_singleton] at hx
  obtain (⟨-, rfl⟩ | ⟨-, rfl⟩) | rfl := hx <;> exact ⟨_, rfl⟩

/-- A make puts the settle delay and `Set` items on the bus, nothing else. -/
theorem mem_makeItems {c : Config} {kc : KeyCode} {x : TraceItem} (hx : x ∈ makeItems c kc) :
    x = .delay .tKeySettle ∨ ∃ a closed, x = .set a closed := by
  simp only [makeItems, List.mem_append, List.mem_ite_nil_left] at hx
  obtain (⟨-, hx⟩ | ⟨-, hx⟩) | ⟨-, hx⟩ := hx
  · obtain ⟨a, rfl⟩ := mem_encItems hx
    exact .inr ⟨a, true, rfl⟩
  · obtain rfl | rfl | rfl := mem_postItems hx
    · exact .inl rfl
    · exact .inr ⟨_, _, rfl⟩
    · exact .inr ⟨_, _, rfl⟩
  · obtain ⟨a, rfl⟩ := mem_encItems hx
    exact .inr ⟨a, true, rfl⟩

/-- A break puts openings on the bus, nothing else. -/
theorem mem_breakItems {c : Config} {kc : KeyCode} {x : TraceItem} (hx : x ∈ breakItems c kc) :
    ∃ a, x = .set a false := by
  simp only [breakItems, List.mem_append, List.mem_ite_nil_left] at hx
  obtain ⟨-, hx⟩ | ⟨-, hx⟩ := hx <;> exact mem_encItems hx

theorem reset_not_mem_makeItems (c : Config) (kc : KeyCode) : TraceItem.reset ∉ makeItems c kc := by
  intro hmem
  obtain h | ⟨_, _, h⟩ := mem_makeItems hmem <;> cases h

theorem reset_not_mem_breakItems (c : Config) (kc : KeyCode) : TraceItem.reset ∉ breakItems c kc := by
  intro hmem
  obtain ⟨_, h⟩ := mem_breakItems hmem
  cases h

theorem delay_not_mem_breakItems (c : Config) (kc : KeyCode) (d : Duration) : TraceItem.delay d ∉ breakItems c kc := by
  intro hmem
  obtain ⟨_, h⟩ := mem_breakItems hmem
  cases h

/-- An address that a key's items do not drive reads as before. -/
theorem read_afterItems_of_not_drives {items : List TraceItem} {s : State} {a : Nat}
    (hreset : TraceItem.reset ∉ items) (hdrives : ¬drives items a) : (afterItems items s).sw.read a = s.sw.read a := by
  rw [afterItems_sw, read_applyTrace_of_not_drives hreset hdrives]

/-- Settles O35: the state of `execKeyMake_eq`, whose items are a delay and `Set`s. -/
theorem keyMakeAssertsTheResolvedPair : Obligations.KeyMakeAssertsTheResolvedPair := fun code s _ =>
  ⟨_, execKeyMake_eq code s, rfl, afterItems_trace _ _, reset_not_mem_makeItems _ _,
    fun _ => read_afterItems_of_not_drives (reset_not_mem_makeItems _ _)⟩

/-- Settles O36: the state of `execKeyBreak_eq`, whose items are openings. -/
theorem keyBreakReleasesTheResolvedPair : Obligations.KeyBreakReleasesTheResolvedPair := fun code s _ =>
  ⟨_, execKeyBreak_eq code s, rfl, afterItems_trace _ _, reset_not_mem_breakItems _ _,
    delay_not_mem_breakItems _ _, fun _ => read_afterItems_of_not_drives (reset_not_mem_breakItems _ _)⟩

/-! ### Simple keys -/

/-- The points an encoding drives, in order (R115, R117). -/
def encAddrs (c : Config) (enc : Byte) : List Addr :=
  (if needsCaps enc then [c.capsAddr] else []) ++ (if needsSym enc then [c.symAddr] else []) ++ [encAddr enc]

theorem encItems_eq_map (c : Config) (enc : Byte) (closed : Bool) :
    encItems c enc closed = (encAddrs c enc).map fun a => .set a closed := by
  unfold encItems encAddrs
  cases needsCaps enc <;> cases needsSym enc <;> rfl

theorem makeItems_of_simple (c : Config) {p : Byte} (hp : p ≠ 0x00#8) :
    makeItems c ⟨p, 0x00#8⟩ = encItems c p true := by
  simp [makeItems, hp]

theorem breakItems_of_simple (c : Config) {p : Byte} (hp : p ≠ 0x00#8) :
    breakItems c ⟨p, 0x00#8⟩ = encItems c p false := by
  simp [breakItems, hp]

/-- Settles O38: both are the points of the one encoding. -/
theorem simpleKeySwitchSymmetry : Obligations.SimpleKeySwitchSymmetry := by
  intro c s t s' t' p hp hcfg hmake hbreak ht ht'
  refine ⟨encAddrs s.cfg p, rfl, ?_, ?_⟩
  · rw [execKeyMake_trace ht, hmake, makeItems_of_simple _ hp, encItems_eq_map]
  · rw [execKeyBreak_trace ht', hbreak, hcfg, breakItems_of_simple _ hp, encItems_eq_map]

theorem no_modifiers_of_lt : ∀ p : Byte, p < 0x40#8 → needsCaps p = false ∧ needsSym p = false := by decide

theorem encItems_of_plain (c : Config) {p : Byte} (hp : p < 0x40#8) (closed : Bool) :
    encItems c p closed = [.set (encAddr p) closed] := by
  obtain ⟨hcaps, hsym⟩ := no_modifiers_of_lt p hp
  simp [encItems, hcaps, hsym]

/-- The array after a key is the fold of its items. -/
theorem exec_key_bus {code : Byte} {rel : Bool} {s t : State}
    (h : exec (if rel = true then .keyBreak code else .keyMake code) s = .next t) :
    t.trace = s.trace ++ (if rel = true then breakItems else makeItems) s.cfg (resolve code rel s).1 ∧
      t.sw = applyTrace s.sw ((if rel = true then breakItems else makeItems) s.cfg (resolve code rel s).1) := by
  cases rel with
  | false =>
    cases (execKeyMake_eq code s).symm.trans h
    exact ⟨afterItems_trace _ _, afterItems_sw _ _⟩
  | true =>
    cases (execKeyBreak_eq code s).symm.trans h
    exact ⟨afterItems_trace _ _, afterItems_sw _ _⟩

/-- Settles O39: the items of the key are the one `Set` of its point. -/
theorem simpleKeyClosesAndOpensItsPoint : Obligations.SimpleKeyClosesAndOpensItsPoint := by
  intro c s t p rel hp hplain hpair h
  obtain ⟨htrace, hsw⟩ := exec_key_bus h
  have hitems : (if rel = true then breakItems else makeItems) s.cfg ⟨p, 0x00#8⟩ = [.set (encAddr p) !rel] := by
    cases rel
    · exact (makeItems_of_simple s.cfg hp).trans (encItems_of_plain s.cfg hplain true)
    · exact (breakItems_of_simple s.cfg hp).trans (encItems_of_plain s.cfg hplain false)
  rw [hpair, hitems] at htrace hsw
  rw [hsw]
  exact ⟨htrace, Memory.closedAt_setPoint_same _ _ _, fun _ => Memory.closedAt_setPoint_other _ _⟩

/-! ### A make and its break (41_translator.md section 9) -/

/-- The state `b` has what the break of `c` reads as the make of `c` from `s` left it, under the same `ext`. -/
structure MadeFrom (c : Byte) (s b : State) : Prop where
  cfg : b.cfg = s.cfg
  ext : b.ext = s.ext
  rsHeld : b.rsHeld = s.rsHeld
  rsPunctApplied : b.rsPunctApplied = if punctGate s c then true else s.rsPunctApplied
  digitApplied : b.digitApplied = if relocates s c false then true else s.digitApplied
  symHeld : b.symHeld = (s.symHeld || touchesSymKey s.cfg (resolve c false s).1)

theorem madeFrom_of_execKeyMake {c : Byte} {s t : State} (h : execKeyMake c s = .next t) :
    MadeFrom c s { t with ts := .released, ext := s.ext } := by
  cases (execKeyMake_eq c s).symm.trans h
  constructor <;> simp [keyRegs, resolve_eq]

/-- A remap that the make applied leaves the sticky latch set, so the break's gate is the make's. -/
theorem MadeFrom.punctGate {c : Byte} {s b : State} (h : MadeFrom c s b) :
    Machine.punctGate b c = Machine.punctGate s c := by
  have hgate : Machine.punctGate b c =
      (punctDeltaAt s.cfg s.ext c != .none && (s.rsHeld || b.rsPunctApplied)) := by
    rw [Machine.punctGate, h.cfg, h.ext, h.rsHeld]
  rw [hgate, h.rsPunctApplied]
  cases hs : Machine.punctGate s c with
  | false => exact hs
  | true =>
    have hdelta : (punctDeltaAt s.cfg s.ext c != .none) = true := by
      rw [Machine.punctGate, Bool.and_eq_true] at hs
      exact hs.1
    simp [hdelta]

theorem MadeFrom.lookedUp {c : Byte} {s b : State} (h : MadeFrom c s b) :
    Machine.lookedUp b c = Machine.lookedUp s c := by
  simp only [Machine.lookedUp, remappedCode, h.punctGate, h.cfg, h.ext]

/-- With `digitApplied` clear before a make that can set it, the break relocates exactly when the make did. -/
theorem MadeFrom.relocates {c : Byte} {s b : State} (h : MadeFrom c s b)
    (hclear : isRelocatable s.cfg (Machine.lookedUp s c) = true → s.digitApplied = false) :
    Machine.relocates b c true = Machine.relocates s c false := by
  have hbreak : Machine.relocates b c true = (b.digitApplied && isRelocatable s.cfg (Machine.lookedUp s c)) := by
    rw [Machine.relocates, h.lookedUp, h.cfg]
    rfl
  rw [hbreak, h.digitApplied]
  cases hmake : Machine.relocates s c false with
  | true =>
    rw [Machine.relocates, Bool.and_eq_true] at hmake
    exact hmake.2
  | false =>
    cases hcan : isRelocatable s.cfg (Machine.lookedUp s c) with
    | false => exact Bool.and_false _
    | true => simp [hclear hcan]

theorem MadeFrom.resolve_fst {c : Byte} {s b : State} (h : MadeFrom c s b)
    (hclear : isRelocatable s.cfg (Machine.lookedUp s c) = true → s.digitApplied = false) :
    (resolve c true b).1 = (resolve c false s).1 := by
  simp only [resolve_eq, h.relocates hclear, h.lookedUp, h.cfg]

/-- The latches after a break (R110, R113, R117). -/
theorem latches_of_execKeyBreak {c : Byte} {b u : State} (h : execKeyBreak c b = .next u) :
    latches u =
      (b.symHeld && !touchesSymKey b.cfg (resolve c true b).1,
        if relocates b c true then false else b.digitApplied,
        b.rsHeld,
        if punctGate b c then false else b.rsPunctApplied) := by
  cases (execKeyBreak_eq c b).symm.trans h
  simp [latches, keyRegs, resolve_eq]

/-- Settles O40: the break reverses what the make did to each latch, because its gates and its pair are the make's. -/
theorem pressThenReleaseRestoresLatches : Obligations.PressThenReleaseRestoresLatches := by
  intro c s t u hpunct hdigit hsym hmake hbreak
  have hclear : isRelocatable s.cfg (lookedUp s c) = true → s.digitApplied = false := hdigit
  have h := madeFrom_of_execKeyMake hmake
  rw [latches_of_execKeyBreak hbreak, h.resolve_fst hclear, h.relocates hclear, h.punctGate, h.cfg, h.rsHeld,
    h.symHeld, h.digitApplied, h.rsPunctApplied]
  refine Prod.ext ?_ (Prod.ext ?_ (Prod.ext rfl ?_))
  · cases htouch : touchesSymKey s.cfg (resolve c false s).1 with
    | false => simp [latches]
    | true => simp [latches, hsym htouch]
  · cases hmoved : relocates s c false with
    | false => rfl
    | true =>
      rw [relocates, Bool.and_eq_true] at hmoved
      exact (hclear hmoved.2).symm
  · cases hgate : punctGate s c with
    | false => rfl
    | true =>
      rw [punctGate, Bool.and_eq_true, bne_iff_ne] at hgate
      exact (hpunct hgate.1).symm

/-! ### A break under right shift (70_reset_and_hazards.md section 3) -/

/-- With no relocation the pair is the one looked up. -/
theorem resolve_fst_of_not_digitGate {s : State} {rel : Bool} (h : digitGate s rel = false) (code : Byte) :
    (resolve code rel s).1 = lookedUp s code := by
  simp [resolve_eq, relocates, h]

/-- RSHIFT.MAKE in one equation (R107). -/
theorem execRshiftMake_eq (s : State) :
    execRshiftMake s = .next { s with rsHeld := true, ts := .pressed, lastCode := s.cfg.rshiftCode,
                                      ext := if s.cfg.rshiftClearsExt = true then false else s.ext } := by
  unfold execRshiftMake rightShift onlyIf
  cases h : s.cfg.rshiftClearsExt <;> simp [h] <;> rfl

/-- RSHIFT.BREAK in one equation (R108). -/
theorem execRshiftBreak_eq (s : State) :
    execRshiftBreak s = .next { s with rsHeld := false, ts := .idle, lastCode := s.cfg.rshiftCode,
                                       ext := if s.cfg.rshiftClearsExt = true then false else s.ext } := by
  unfold execRshiftBreak rightShift onlyIf
  cases h : s.cfg.rshiftClearsExt <;> simp [h] <;> rfl

/-- Settles O30: both forms are `rightShift`, with the latch and the transition state of their rule. -/
theorem rightShiftUpdatesItsLatch : Obligations.RightShiftUpdatesItsLatch := fun s =>
  ⟨fun _ => execRshiftMake_eq s, fun _ => execRshiftBreak_eq s⟩

/-- With right shift down the break of a remappable key opens the pair of the remapped code (R110, R117). -/
theorem execKeyBreak_under_rightShift {k : Byte} {b v : State} (hdelta : punctDeltaAt b.cfg b.ext k ≠ .none)
    (hrsHeld : b.rsHeld = true) (hext : b.ext = false) (hdigit : b.digitApplied = false)
    (h : execKeyBreak k b = .next v) :
    v.trace = b.trace ++ breakItems b.cfg (tableAt b.cfg.plain (add8 k (punctDeltaAt b.cfg false k).value)) ∧
      v.rsPunctApplied = false := by
  have hopen : punctGate b k = true := by simp [punctGate, hdelta, hrsHeld]
  have hpair : (resolve k true b).1 = tableAt b.cfg.plain (add8 k (punctDeltaAt b.cfg false k).value) := by
    rw [resolve_fst_of_not_digitGate (rel := true) hdigit, lookedUp, remappedCode, if_pos hopen, hext]
    rfl
  have hlatches := latches_of_execKeyBreak h
  rw [if_pos hopen] at hlatches
  exact ⟨hpair ▸ execKeyBreak_trace h, congrArg (·.2.2.2) hlatches⟩

/-- Settles O41: the gate is closed at the make and open at the break, which alone looks up the remapped code. -/
theorem breakUnderRightShiftReleasesRemappedKey : Obligations.BreakUnderRightShiftReleasesRemappedKey := by
  intro k s t u v hdelta hrsHeld hpunct hdigit hsym hext hmake hshift hbreak
  have hclosed : punctGate s k = false := by simp [punctGate, hrsHeld, hpunct]
  have hpair : (resolve k false s).1 = tableAt s.cfg.plain k := by
    rw [resolve_fst_of_not_digitGate (rel := false) hsym, lookedUp, remappedCode, hclosed, hext]
    rfl
  have hmade : t.cfg = s.cfg ∧ t.ext = false ∧ t.digitApplied = false := by
    cases (execKeyMake_eq k s).symm.trans hmake
    simp [keyRegs, resolve_eq, relocates, digitGate, hsym, hdigit]
  obtain ⟨hcfg, htext, htdigit⟩ := hmade
  have hshifted : u.cfg = s.cfg ∧ u.trace = t.trace ∧ u.rsHeld = true ∧ u.ext = false ∧ u.digitApplied = false := by
    cases (execRshiftMake_eq t).symm.trans hshift
    simp [hcfg, htext, htdigit]
  obtain ⟨hucfg, hutrace, hursHeld, huext, hudigit⟩ := hshifted
  have hremapped := execKeyBreak_under_rightShift (b := { u with ts := .released })
    (by simpa only [hucfg, huext, ← hext] using hdelta) hursHeld huext hudigit hbreak
  simp only [hucfg, hutrace] at hremapped
  exact ⟨hpair ▸ execKeyMake_trace hmake, hremapped⟩

/-! ### One encoding by itself (30_encoding.md R62, log 9) -/

theorem isZeroAddrMod_eq_false {enc : Byte} :
    isZeroAddrMod enc = false ↔ enc ≠ 0x40#8 ∧ enc ≠ 0x80#8 ∧ enc ≠ 0xC0#8 := by
  simp [isZeroAddrMod, and_assoc]

/-- The refusal of KEYENC is the negation of what the statement allows (R122). -/
theorem keyEnc_refused_iff (enc : Byte) (s : State) :
    (isZeroAddrMod enc && !s.cfg.allowZeroAddrMod) = true ↔
      ¬((enc ≠ 0x40#8 ∧ enc ≠ 0x80#8 ∧ enc ≠ 0xC0#8) ∨ s.cfg.allowZeroAddrMod = true) := by
  rw [← isZeroAddrMod_eq_false]
  simp

/-- The sentinel is no zero-address encoding and is skipped (R112). -/
theorem execKeyEnc_zero (s : State) : execKeyEnc 0x00#8 s = .next s := by
  simp [execKeyEnc, isZeroAddrMod]

/-- Settles O42: the tests of KEYENC in their order; the work on the bus is that of the key path. -/
theorem keyEncodingIsWorkedOnTheBus : Obligations.KeyEncodingIsWorkedOnTheBus := by
  intro enc s ok
  have hrefused : (isZeroAddrMod enc && !s.cfg.allowZeroAddrMod) = true ↔ ¬ok := keyEnc_refused_iff enc s
  refine ⟨fun hnot => ?_, ?_, fun hok henc hts => ?_, fun hok henc hts => ?_⟩
  · rw [exec, execKeyEnc, if_pos (hrefused.mpr hnot)]
  · rintro rfl
    exact execKeyEnc_zero s
  · rw [exec, execKeyEnc, if_neg fun h => hrefused.mp h hok, if_neg henc, if_neg hts, assertOne_eq, symAfter_eq]
    cases s.symHeld <;> cases isSymKey s.cfg enc <;> rfl
  · rw [exec, execKeyEnc, if_neg fun h => hrefused.mp h hok, if_neg henc, if_pos hts, releaseOne_eq, symAfter_eq]
    cases s.symHeld <;> cases isSymKey s.cfg enc <;> rfl

end Sys2Proof.Machine
end

section
/-! PROOFS. The decoder registers: what a data cell shifts in, the position cycle (10_state.md section 2), and the
registers that `Decode` neither reads nor writes (40_frame_decoder.md sections 1 and 2). -/

namespace Sys2Proof.Machine

/-! ### The accumulator (R82) -/

theorem inWindow_iff (n : BitVec 4) : inWindow n = true ↔ 3#4 ≤ n ∧ n ≤ 10#4 := by
  simp only [inWindow, Bool.and_eq_true, decide_eq_true_eq]
  rfl

/-- The bits of the accumulator after a data cell: the sample at bit 7, the others one place lower (R82). -/
theorem getLsbD_shiftIn (acc : Byte) (d : Level) (i : Nat) :
    (shiftIn acc d).getLsbD i = if i = 7 then d.toBool else acc.getLsbD (i + 1) := by
  have hsample : (0x80#8).getLsbD i = decide (i = 7) := by
    by_cases hi : i < 8
    · interval_cases i <;> rfl
    · rw [BitVec.getLsbD_of_ge _ _ (Nat.le_of_not_lt hi), decide_eq_false (by omega)]
  by_cases hi : i = 7
  · subst hi
    cases d <;> simp [shiftIn, Level.toBool, BitVec.getLsbD_of_ge]
  · cases d <;> simp [shiftIn, hsample, hi, Nat.add_comm]

/-- Settles O13: the window is the data cells, and there the accumulator is `shiftIn`. -/
theorem edgeFShiftsDataCells : Obligations.EdgeFShiftsDataCells := by
  intro d s
  refine ⟨if inWindow s.bitCount then shiftIn s.acc d else s.acc, execEdgeF_eq d s, fun hdata => ?_, fun hother => ?_⟩
  · rw [if_pos ((inWindow_iff _).mpr hdata)]
    refine ⟨?_, fun i hi => ?_⟩
    · rw [getLsbD_shiftIn, if_pos rfl]
      cases d <;> decide
    · rw [getLsbD_shiftIn, if_neg (by omega)]
  · rw [if_neg fun hwindow => hother ((inWindow_iff _).mp hwindow)]

/-! ### The position cycle (10_state.md section 2) -/

/-- A decoder step that goes on takes the next of the 22 places. -/
theorem decoderStep_cyclePosition {d : Level} {s t : State} (h : decoderStep d s = .next t) :
    cyclePosition t = (cyclePosition s + 1) % 22 := by
  unfold decoderStep at h
  cases hop : selectEdge s.selector with
  | none => rw [hop] at h; cases h
  | some op =>
    rw [hop] at h
    obtain ⟨hposition, hselected⟩ := selectEdge_spec hop
    obtain ⟨hlow, hhigh⟩ : 1 ≤ s.bitCount.toNat ∧ s.bitCount.toNat ≤ 11 := (positionOk_iff _).mp hposition
    cases op with
    | f =>
      have hphase : s.edgePhase = .falling := hselected
      cases (execEdgeF_eq d s).symm.trans h
      simp only [cyclePosition, hphase]
      omega
    | r =>
      obtain ⟨hphase, hcount⟩ : s.edgePhase = .rising ∧ 2#4 ≤ s.bitCount := hselected
      have hge : 2 ≤ s.bitCount.toNat := by simpa [BitVec.le_def] using hcount
      cases (execEdgeR_eq d s).symm.trans h
      simp only [cyclePosition, hphase, toNat_sub_one hge]
      omega
    | rDone =>
      obtain ⟨hphase, hcount⟩ : s.edgePhase = .rising ∧ s.bitCount = 1#4 := hselected
      have hregs := (execEdgeRDone_spec h).2.1
      simp only [decoderRegs, Prod.mk.injEq] at hregs
      obtain ⟨hphase', hcount', -⟩ := hregs
      simp [cyclePosition, hphase, hcount, hphase', hcount', armedCount]

/-- Settles O16: a delivered edge's operation is the decoder step of its position. -/
theorem deliveredEdgeAdvancesPosition : Obligations.DeliveredEdgeAdvancesPosition := by
  intro s t pol b rest hinv hirq hinputs h
  have hkept : isDropped ⟨.edge pol, [b]⟩ s = false :=
    isDropped_eq_false fun _ => (deliverable_iff s).mpr ⟨hirq, hinv.idle⟩
  obtain ⟨-, ⟨hempty, -⟩ | ⟨x, rest', hhead, hrun⟩⟩ := step_cases h
  · rw [hempty] at hinputs; cases hinputs
  cases hinputs.symm.trans hhead
  obtain ⟨hdropped, -⟩ | ⟨i, -, hdecode, hexec⟩ := hrun
  · rw [hkept] at hdropped; cases hdropped
  obtain ⟨-, op, hop, rfl⟩ := decodeEdge_eq_ok hdecode
  rw [exec_edgeOp (by rw [takeItem_selector, hop])] at hexec
  have hplace : cyclePosition (takeItem ⟨.edge pol, [b]⟩ rest s) = cyclePosition s := by rw [takeItem_eq]; rfl
  rw [decoderStep_cyclePosition hexec, hplace]

/-! ### What `Decode` neither reads nor writes -/

/-- The state `s` with the registers `Decode` does not see taken from `r`: the decoder's, `busy` and the input pins. -/
def unseenFrom (r s : State) : State :=
  { s with edgePhase := r.edgePhase, bitCount := r.bitCount, acc := r.acc, busy := r.busy,
           ps2Clk := r.ps2Clk, ps2Dat := r.ps2Dat }

theorem mapNext_congr {f g : State → State} {o : Outcome} (h : ∀ t, o = .next t → f t = g t) :
    mapNext f o = mapNext g o := by
  cases o with
  | next t => exact congrArg Host.Outcome.next (h t rfl)
  | fault r => rfl
  | refused r => rfl

/-- A change of the state passes through a sequence when it passes through both parts. -/
theorem andThen_mapNext {f : State → State} {o o' : Outcome} {g : State → Outcome} (ho : o' = mapNext f o)
    (hg : ∀ t, g (f t) = mapNext f (g t)) : andThen o' g = mapNext f (andThen o g) := by
  subst ho
  cases o with
  | next t => exact hg t
  | fault r => rfl
  | refused r => rfl

variable (r : State)

theorem afterItems_unseenFrom (items : List TraceItem) (s : State) :
    afterItems items (unseenFrom r s) = unseenFrom r (afterItems items s) := by
  induction items generalizing s with
  | nil => rfl
  | cons x xs ih => exact ih (afterItem s x)

theorem resolve_unseenFrom (code : Byte) (rel : Bool) (s : State) :
    resolve code rel (unseenFrom r s) = ((resolve code rel s).1, unseenFrom r (resolve code rel s).2) := by
  rw [resolve_eq, resolve_eq]
  rfl

theorem execKeyMake_unseenFrom (code : Byte) (s : State) :
    execKeyMake code (unseenFrom r s) = mapNext (unseenFrom r) (execKeyMake code s) := by
  rw [execKeyMake_eq, execKeyMake_eq, mapNext, ← afterItems_unseenFrom]
  simp only [keyRegs, resolve_unseenFrom]
  rfl

theorem execKeyBreak_unseenFrom (code : Byte) (s : State) :
    execKeyBreak code (unseenFrom r s) = mapNext (unseenFrom r) (execKeyBreak code s) := by
  rw [execKeyBreak_eq, execKeyBreak_eq, mapNext, ← afterItems_unseenFrom]
  simp only [keyRegs, resolve_unseenFrom]
  rfl

theorem raiseDesync_unseenFrom (cause : Cause) (s : State) :
    raiseDesync cause (unseenFrom r s) = unseenFrom r (raiseDesync cause s) := by
  rw [raiseDesync_eq, raiseDesync_eq]
  rfl

theorem execRshiftMake_unseenFrom (s : State) :
    execRshiftMake (unseenFrom r s) = mapNext (unseenFrom r) (execRshiftMake s) := by
  rw [execRshiftMake_eq, execRshiftMake_eq]
  rfl

theorem execRshiftBreak_unseenFrom (s : State) :
    execRshiftBreak (unseenFrom r s) = mapNext (unseenFrom r) (execRshiftBreak s) := by
  rw [execRshiftBreak_eq, execRshiftBreak_eq]
  rfl

theorem decodeInPlay_unseenFrom (code : Byte) (s : State) :
    decodeInPlay code (unseenFrom r s) = mapNext (unseenFrom r) (decodeInPlay code s) := by
  have hclass : classify (unseenFrom r s).selector code = classify s.selector code := rfl
  unfold decodeInPlay
  rw [hclass]
  cases classify s.selector code with
  | pfxE0 => rfl
  | pfxE0Dup => exact congrArg Host.Outcome.next (raiseDesync_unseenFrom r .dupPrefix (s.setLastCode 0xE0#8))
  | pfxF0 => rfl
  | trigger => rfl
  | rshiftMake => exact execRshiftMake_unseenFrom r s
  | rshiftBreak => exact execRshiftBreak_unseenFrom r s
  | keyMake => exact execKeyMake_unseenFrom r code s
  | keyBreak => exact execKeyBreak_unseenFrom r code s
  | bad => exact congrArg Host.Outcome.next (raiseDesync_unseenFrom r .badCode (s.setLastCode code))

theorem playEntry_unseenFrom (c : Byte) (s : State) :
    playEntry c (unseenFrom r s) = mapNext (unseenFrom r) (playEntry c s) := by
  refine andThen_mapNext (decodeInPlay_unseenFrom r c s) fun t => ?_
  refine andThen_mapNext (decodeInPlay_unseenFrom r 0xF0#8 (delay .tMacroDwell t)) fun u => ?_
  refine andThen_mapNext (decodeInPlay_unseenFrom r c u) fun v => ?_
  exact andThen_mapNext (decodeInPlay_unseenFrom r c v) fun _ => rfl

theorem playEntries_unseenFrom (cs : List Byte) (s : State) :
    playEntries cs (unseenFrom r s) = mapNext (unseenFrom r) (playEntries cs s) := by
  induction cs generalizing s with
  | nil => rfl
  | cons c cs ih => exact andThen_mapNext (playEntry_unseenFrom r c s) ih

theorem play_unseenFrom (seq : List Byte) (s : State) :
    play seq (unseenFrom r s) = mapNext (unseenFrom r) (play seq s) := by
  unfold play
  split
  · exact andThen_mapNext (playEntries_unseenFrom r _ (s.setIrqEn false)) fun _ => rfl
  · rfl

theorem execMacroTrigger_unseenFrom (code : Byte) (s : State) :
    execMacroTrigger code (unseenFrom r s) = mapNext (unseenFrom r) (execMacroTrigger code s) := by
  have hmacro : macroFor (unseenFrom r s).cfg code = macroFor s.cfg code := rfl
  unfold execMacroTrigger
  rw [hmacro]
  cases macroFor s.cfg code with
  | none => rfl
  | some m => exact play_unseenFrom r m.seq (s.setLastCode code)

/-- `Decode` passes a change of the registers it does not see. -/
theorem decodeCode_unseenFrom (code : Byte) (s : State) :
    decodeCode code (unseenFrom r s) = mapNext (unseenFrom r) (decodeCode code s) := by
  obtain ⟨htrigger, hs⟩ | ⟨hother, hs, -⟩ := decodeCode_cases code s
  · obtain ⟨-, hr⟩ | ⟨hclash, -⟩ := decodeCode_cases code (unseenFrom r s)
    · rw [hs, hr, execMacroTrigger_unseenFrom]
    · exact absurd htrigger hclash
  · obtain ⟨hclash, -⟩ | ⟨-, hr, -⟩ := decodeCode_cases code (unseenFrom r s)
    · exact absurd hclash hother
    · rw [hs, hr, decodeInPlay_unseenFrom]

/-- A change of registers that `Decode` does not see comes out as it went in. -/
theorem decodeCode_of_unseen {f : State → State} (hf : ∀ s t, Translates s t → unseenFrom (f s) t = f t)
    (code : Byte) (s : State) : decodeCode code (f s) = mapNext f (decodeCode code s) := by
  calc decodeCode code (f s)
      = decodeCode code (unseenFrom (f s) s) := by rw [hf s s (.refl s)]
    _ = mapNext (unseenFrom (f s)) (decodeCode code s) := decodeCode_unseenFrom (f s) code s
    _ = mapNext f (decodeCode code s) := mapNext_congr fun t ht => hf s t (decodeCode_spec ht).1

/-- Settles O22: the decoder registers and `busy` are among the registers `Decode` does not see. -/
theorem decodeIgnoresDecoderRegisters : Obligations.DecodeIgnoresDecoderRegisters := by
  intro code s p n a b
  refine decodeCode_of_unseen (f := fun t => withDecoder t p n a b) (fun s t ht => ?_) code s
  simp only [unseenFrom, withDecoder, ← ht.ps2Clk, ← ht.ps2Dat]

/-- The state with another level of `PS2_CLK`. -/
def withClk (l : Level) (s : State) : State := { s with ps2Clk := l }

/-- The level of `PS2_CLK` is among the registers `Decode` does not see. -/
theorem decodeCode_withClk (code : Byte) (l : Level) (s : State) :
    decodeCode code (withClk l s) = mapNext (withClk l) (decodeCode code s) := by
  refine decodeCode_of_unseen (fun s t ht => ?_) code s
  simp only [unseenFrom, withClk, ← ht.edgePhase, ← ht.bitCount, ← ht.acc, ← ht.busy, ← ht.ps2Dat]

theorem mapNext_mapNext (f g : State → State) (o : Outcome) : mapNext f (mapNext g o) = mapNext (f ∘ g) o := by
  cases o <;> rfl

/-- No half-cell operation reads the level of `PS2_CLK`. -/
theorem exec_edgeOp_withClk (op : EdgeOp) (d l : Level) (s : State) :
    exec (op.instr d) (withClk l s) = mapNext (withClk l) (exec (op.instr d) s) := by
  cases op with
  | f =>
    rw [EdgeOp.instr, exec, exec, execEdgeF_eq, execEdgeF_eq]
    rfl
  | r => rfl
  | rDone => exact andThen_mapNext (decodeCode_withClk s.acc l (rearmed s)) fun _ => rfl

/-- The queue with an edge at its head. -/
def withEdge (pol : Polarity) (b : Byte) (rest : List Input) (s : State) : State :=
  { s with inputs := ⟨.edge pol, [b]⟩ :: rest }

/-- Two edges with the same sample are taken alike, but for the level of `PS2_CLK`. -/
theorem takeItem_withEdge (pol pol' : Polarity) (b : Byte) (rest : List Input) (s : State) :
    takeItem ⟨.edge pol, [b]⟩ rest (withEdge pol b rest s) =
      withClk pol.level (takeItem ⟨.edge pol', [b]⟩ rest (withEdge pol' b rest s)) := rfl

/-- Settles O18: the configuration, the drop and the decoding do not read the direction, and the operation passes the
level of `PS2_CLK` on unread. -/
theorem edgeDirectionIsNeverRead : Obligations.EdgeDirectionIsNeverRead := by
  intro s pol pol' b rest
  change mapNext (withClk .low) (step (withEdge pol b rest s)) = mapNext (withClk .low) (step (withEdge pol' b rest s))
  cases hcfg : s.cfg.wf with
  | false =>
    have hstep (p : Polarity) : step (withEdge p b rest s) = .refused .illFormedConfig := step_of_illFormedConfig hcfg
    rw [hstep, hstep]
  | true =>
    cases hdropped : isDropped ⟨.edge pol, [b]⟩ s with
    | true =>
      have hstep (p : Polarity) : step (withEdge p b rest s) = .next (takeItem ⟨.edge p, [b]⟩ rest (withEdge p b rest s)) :=
        step_of_dropped hcfg rfl hdropped
      rw [hstep, hstep, takeItem_withEdge pol pol']
      rfl
    | false =>
      cases hdecode : decodeEdge s.selector b with
      | error e =>
        have hstep (p : Polarity) : step (withEdge p b rest s) = .refused (.undecodable e) :=
          step_of_undecodable hcfg rfl hdecode hdropped
        rw [hstep, hstep]
      | ok i =>
        have hstep (p : Polarity) :
            step (withEdge p b rest s) = exec i (takeItem ⟨.edge p, [b]⟩ rest (withEdge p b rest s)) :=
          step_of_decode hcfg rfl hdropped hdecode
        obtain ⟨-, op, -, rfl⟩ := decodeEdge_eq_ok hdecode
        rw [hstep, hstep, takeItem_withEdge pol pol', exec_edgeOp_withClk, mapNext_mapNext]
        rfl

end Sys2Proof.Machine
end

section
/-! PROOFS. Whole frames (40_frame_decoder.md section 3): the 22 edges of a frame that is lost, of one from the armed
position, and of one from every position. -/

namespace Sys2Proof.Machine

/-! ### A frame that is lost (R80, V6) -/

theorem deliverEdge_of_not_deliverable (pol : Polarity) (d : Level) {s : State} (h : deliverable s = false) :
    deliverEdge pol d s = .next (movePins pol d s) := by
  have hmoved : deliverable (movePins pol d s) = false := h
  simp [deliverEdge, hmoved]

/-- A cell whose edges are dropped only moves the input pins. -/
theorem deliverCells_cons_of_not_deliverable (d : Level) (ds : List Level) {s : State} (h : deliverable s = false) :
    deliverCells (d :: ds) s = deliverCells ds (movePins .rise d s) := by
  have hmoved : deliverable (movePins .fall d s) = false := h
  rw [deliverCells, deliverEdge_of_not_deliverable .fall d h, andThen_next,
    deliverEdge_of_not_deliverable .rise d hmoved]
  rfl

/-- Cells none of whose edges is delivered leave the input pins at H and at the last level. -/
theorem deliverCells_of_not_deliverable (ds : List Level) (d : Level) {s : State} (h : deliverable s = false) :
    deliverCells (ds ++ [d]) s = .next (movePins .rise d s) := by
  induction ds generalizing s with
  | nil => exact deliverCells_cons_of_not_deliverable d [] h
  | cons c cs ih => exact (deliverCells_cons_of_not_deliverable c _ h).trans (ih h)

/-- The ten cells before the stop cell, and the stop cell (R60). -/
theorem frameCells_eq (cells : BitVec 11) :
    frameCells cells = (List.range 10).map (frameCell cells) ++ [frameCell cells 10] := rfl

/-- Settles O21: no edge is delivered, and each moves the two input pins. -/
theorem maskedFrameIsLost : Obligations.MaskedFrameIsLost := by
  intro s cells hmasked
  rw [exec, execFrame, frameCells_eq, deliverCells_of_not_deliverable _ _ ((not_deliverable_iff s).mpr hmasked)]
  rfl

/-! ### The decoder step by position (R85) -/

/-- The half-cell operation of a position between steps. -/
def positionInstr (d : Level) (s : State) : Instr :=
  if s.edgePhase = .falling then .edgeF d else if 2#4 ≤ s.bitCount then .edgeR d else .edgeRDone d

theorem decoderStep_eq_exec (d : Level) {s : State} (h : positionOk s.bitCount = true) :
    decoderStep d s = exec (positionInstr d s) s := by
  unfold decoderStep selectEdge positionInstr
  simp only [State.selector, h]
  cases s.edgePhase with
  | falling => rfl
  | rising => by_cases hcount : 2#4 ≤ s.bitCount <;> simp [hcount] <;> rfl

/-- A delivered edge in a position between steps runs the operation of the position. -/
theorem deliverEdge_of_deliverable (pol : Polarity) (d : Level) {s : State} (hdeliver : deliverable s = true)
    (hposition : positionOk s.bitCount = true) :
    deliverEdge pol d s = exec (positionInstr d s) (movePins pol d s) := by
  have hmoved : deliverable (movePins pol d s) = true := hdeliver
  rw [deliverEdge, if_pos hmoved]
  exact decoderStep_eq_exec d hposition

/-! ### A frame from the armed position -/

/-- The state after the falling edge of a cell (R82). -/
def afterFall (s : State) (d : Level) : State :=
  { s with acc := if inWindow s.bitCount then shiftIn s.acc d else s.acc
           edgePhase := .rising, busy := false, ps2Clk := .low, ps2Dat := d }

/-- The state after both edges of a cell that is not the last (R82, R83). -/
def afterCell (s : State) (d : Level) : State :=
  { afterFall s d with bitCount := s.bitCount - 1#4, edgePhase := .falling, ps2Clk := .high }

theorem deliverEdge_fall (d : Level) {s : State} (hdeliver : deliverable s = true) (hphase : s.edgePhase = .falling)
    (hposition : positionOk s.bitCount = true) : deliverEdge .fall d s = .next (afterFall s d) := by
  rw [deliverEdge_of_deliverable .fall d hdeliver hposition, positionInstr, if_pos hphase]
  exact execEdgeF_eq d _

theorem deliverable_afterFall (d : Level) {s : State} (h : deliverable s = true) : deliverable (afterFall s d) = true :=
  (deliverable_iff _).mpr ⟨((deliverable_iff s).mp h).1, rfl⟩

/-- One cell that is not the last, delivered from the start of its place. -/
theorem deliverCells_cons (d : Level) (ds : List Level) {s : State} (hdeliver : deliverable s = true)
    (hphase : s.edgePhase = .falling) (hlow : 2 ≤ s.bitCount.toNat) (hhigh : s.bitCount.toNat ≤ 11) :
    deliverCells (d :: ds) s = deliverCells ds (afterCell s d) := by
  have hposition : positionOk s.bitCount = true := (positionOk_iff _).mpr ⟨by omega, hhigh⟩
  have hcount : 2#4 ≤ s.bitCount := by simpa [BitVec.le_def] using hlow
  have hrise : positionInstr d (afterFall s d) = .edgeR d := by simp [positionInstr, afterFall, hcount]
  rw [deliverCells, deliverEdge_fall d hdeliver hphase hposition, andThen_next,
    deliverEdge_of_deliverable .rise d (deliverable_afterFall d hdeliver) hposition, hrise]
  rfl

/-- Cells before the last, delivered one after another. -/
theorem deliverCells_append (ds rest : List Level) {s : State} (hdeliver : deliverable s = true)
    (hphase : s.edgePhase = .falling) (hlow : ds.length + 1 ≤ s.bitCount.toNat) (hhigh : s.bitCount.toNat ≤ 11) :
    deliverCells (ds ++ rest) s = deliverCells rest (ds.foldl afterCell s) := by
  induction ds generalizing s with
  | nil => rfl
  | cons d ds ih =>
    rw [List.length_cons] at hlow
    have hcount : (afterCell s d).bitCount.toNat = s.bitCount.toNat - 1 := toNat_sub_one (by omega)
    rw [List.cons_append, deliverCells_cons d _ hdeliver hphase (by omega) hhigh, List.foldl_cons]
    exact ih (s := afterCell s d) (deliverable_afterFall (s := s) d hdeliver) rfl (by omega) (by omega)

/-- The accumulator after the eight data cells (R82). -/
def dataByte (cells : BitVec 11) (acc : Byte) : Byte :=
  ((List.range 8).map fun i => frameCell cells (i + 1)).foldl shiftIn acc

theorem Level.toBool_ofBool (b : Bool) : (Level.ofBool b).toBool = b := by
  cases b <;> rfl

/-- Data cell `i` becomes bit `i`, whatever the accumulator held (R60, R82). -/
theorem getLsbD_dataByte (cells : BitVec 11) (acc : Byte) {i : Nat} (hi : i < 8) :
    (dataByte cells acc).getLsbD i = cells.getLsbD (9 - i) := by
  simp only [dataByte, List.range_succ, List.range_zero, List.map_append, List.map_cons, List.map_nil, List.foldl_append,
    List.foldl_cons, List.foldl_nil, List.nil_append, getLsbD_shiftIn, frameCell, Level.toBool_ofBool]
  interval_cases i <;> rfl

/-- The registers that `Decode` does not see, before the stop cell of a frame from the armed position. -/
theorem foldl_afterCell (cells : BitVec 11) {s : State} (hcount : s.bitCount = 11#4) (hbusy : s.busy = false) :
    ((List.range 10).map (frameCell cells)).foldl afterCell s =
      { s with acc := dataByte cells s.acc, bitCount := 1#4, edgePhase := .falling, ps2Clk := .high
               ps2Dat := frameCell cells 9 } := by
  simp [List.range_succ, afterCell, afterFall, hcount, hbusy, inWindow, winLo, winHi, dataByte]

/-- The last cell of a frame: its rising edge hands the accumulator over (R84), whatever the registers that `Decode` does
not see. -/
theorem deliverCells_last (d : Level) {r s u : State} (hdeliver : deliverable (unseenFrom r s) = true)
    (hphase : r.edgePhase = .falling) (hcount : r.bitCount = 1#4) (hu : decodeCode r.acc s = .next u) :
    deliverCells [d] (unseenFrom r s) =
      .next { u with acc := 0x00#8, bitCount := 11#4, edgePhase := .falling, busy := false, ps2Clk := .high, ps2Dat := d } := by
  have hposition : positionOk (unseenFrom r s).bitCount = true := by rw [unseenFrom, hcount]; rfl
  have hrise : positionInstr d (afterFall (unseenFrom r s) d) = .edgeRDone d := by
    simp [positionInstr, afterFall, unseenFrom, hcount]
  have hacc : (movePins .rise d (afterFall (unseenFrom r s) d)).acc = r.acc := by
    simp [movePins, afterFall, unseenFrom, hcount, inWindow, winLo]
  have hunseen : rearmed (movePins .rise d (afterFall (unseenFrom r s) d)) =
      unseenFrom (rearmed (movePins .rise d (afterFall (unseenFrom r s) d))) s := rfl
  rw [deliverCells, deliverEdge_fall d hdeliver hphase hposition, andThen_next,
    deliverEdge_of_deliverable .rise d (deliverable_afterFall d hdeliver) hposition, hrise, exec, execEdgeRDone_eq,
    hacc, hunseen, decodeCode_unseenFrom, hu]
  rfl

/-- Settles O20: ten cells shift the data byte in, whatever the accumulator held, and the last hands it over. -/
theorem frameActsAsItsByte : Obligations.FrameActsAsItsByte := by
  intro s cells code hcfg hirq hbusy hphase hcount hcode
  have hdeliver : deliverable s = true := (deliverable_iff s).mpr ⟨hirq, hbusy⟩
  have hbyte : dataByte cells s.acc = code :=
    BitVec.eq_of_getLsbD_eq fun i hi => (getLsbD_dataByte cells s.acc hi).trans (hcode i hi).symm
  obtain ⟨u, hu⟩ := decodeCode_completes code hcfg
  obtain ⟨htrans, -⟩ := decodeCode_spec hu
  refine ⟨u, hu, ?_⟩
  rw [exec, execFrame, frameCells_eq, deliverCells_append _ _ hdeliver hphase (by simp [hcount]) (by simp [hcount]),
    foldl_afterCell cells hcount hbusy, hbyte]
  have hend : u.bitCount = 11#4 ∧ u.edgePhase = .falling ∧ u.busy = false :=
    ⟨htrans.bitCount.trans hcount, htrans.edgePhase.trans hphase, htrans.busy.trans hbusy⟩
  obtain ⟨hucount, huphase, hubusy⟩ := hend
  refine (deliverCells_last (frameCell cells 10) (s := s) (u := u)
    (r := { s with acc := code, bitCount := 1#4, edgePhase := .falling, ps2Clk := .high, ps2Dat := frameCell cells 9 })
    hdeliver rfl rfl hu).trans ?_
  rw [hucount, huphase, hubusy]
  rfl

/-! ### A frame from every position -/

/-- Edge `k` of the 22 of a frame: the two halves of cell `k / 2`, in order (R70). -/
def frameEdge (cells : BitVec 11) (k : Nat) (s : State) : Outcome :=
  deliverEdge (if k % 2 = 0 then .fall else .rise) (frameCell cells (k / 2)) s

/-- The operation edge `k` of a frame runs in the position it meets, with the input pins moved. -/
def frameEdgeExec (cells : BitVec 11) (k : Nat) (s : State) : Outcome :=
  exec (positionInstr (frameCell cells (k / 2)) s)
    { s with ps2Clk := if k % 2 = 0 then .low else .high, ps2Dat := frameCell cells (k / 2) }

/-- A number of operations in order, each on the state the one before left. -/
def inTurn (f : Nat → State → Outcome) (n : Nat) (s : State) : Outcome :=
  (List.range n).foldl (fun o k => andThen o (f k)) (.next s)

theorem inTurn_succ (f : Nat → State → Outcome) (n : Nat) (s : State) :
    inTurn f (n + 1) s = andThen (inTurn f n s) (f n) := by
  rw [inTurn, List.range_succ, List.foldl_append]
  rfl

theorem andThen_assoc (o : Outcome) (f g : State → Outcome) :
    andThen (andThen o f) g = andThen o fun s => andThen (f s) g := by
  cases o <;> rfl

theorem andThen_next_right (o : Outcome) : andThen o .next = o := by
  cases o <;> rfl

/-- One more cell at the end of a list of cells. -/
theorem deliverCells_concat (ds : List Level) (d : Level) (s : State) :
    deliverCells (ds ++ [d]) s = andThen (andThen (deliverCells ds s) (deliverEdge .fall d)) (deliverEdge .rise d) := by
  induction ds generalizing s with
  | nil => exact congrArg (andThen (deliverEdge .fall d s)) (funext fun t => andThen_next_right (deliverEdge .rise d t))
  | cons c cs ih =>
    have hrest := funext ih
    simp only [List.cons_append, deliverCells, hrest, andThen_assoc]

theorem frameEdge_even (cells : BitVec 11) (n : Nat) :
    frameEdge cells (2 * n) = deliverEdge .fall (frameCell cells n) := by
  funext s
  simp [frameEdge]

theorem frameEdge_odd (cells : BitVec 11) (n : Nat) :
    frameEdge cells (2 * n + 1) = deliverEdge .rise (frameCell cells n) := by
  funext s
  have hhalf : (2 * n + 1) / 2 = n := by omega
  simp [frameEdge, hhalf]

/-- Delivering cells is delivering two edges for each, in order. -/
theorem deliverCells_eq_inTurn (cells : BitVec 11) (n : Nat) (s : State) :
    deliverCells ((List.range n).map (frameCell cells)) s = inTurn (frameEdge cells) (2 * n) s := by
  induction n with
  | zero => rfl
  | succ n ih =>
    rw [List.range_succ, List.map_append, List.map_singleton, deliverCells_concat, ih, Nat.mul_succ,
      inTurn_succ, inTurn_succ, frameEdge_even, frameEdge_odd]

/-- What a frame needs of the state its edges meet: a legal configuration and position, and edges that are delivered. -/
structure Receives (s : State) : Prop where
  cfg : s.cfg.wf = true
  position : positionOk s.bitCount = true
  deliver : deliverable s = true

/-- A delivered edge runs the operation of its position and takes the next of the 22 places. -/
theorem frameEdge_spec (cells : BitVec 11) (k : Nat) {s : State} (h : Receives s) :
    ∃ t, frameEdge cells k s = .next t ∧ frameEdgeExec cells k s = .next t ∧ Receives t ∧
      cyclePosition t = (cyclePosition s + 1) % 22 := by
  obtain ⟨hirq, hbusy⟩ := (deliverable_iff s).mp h.deliver
  obtain ⟨t, ht⟩ : ∃ t, frameEdge cells k s = .next t := deliverEdge_completes _ _ h.cfg h.position
  obtain ⟨hmoves, hposition, hidle, hirqAfter⟩ := deliverEdge_spec ht
  have hexec : frameEdge cells k s = frameEdgeExec cells k s := by
    rw [frameEdge, deliverEdge_of_deliverable _ _ h.deliver h.position, frameEdgeExec, movePins, State.setPs2]
    congr 2
    split <;> rfl
  have hstep : decoderStep (frameCell cells (k / 2))
      (movePins (if k % 2 = 0 then .fall else .rise) (frameCell cells (k / 2)) s) = .next t := by
    rw [← ht, frameEdge, deliverEdge]
    exact (if_pos h.deliver).symm
  have hreceives : Receives t :=
    ⟨by rw [hmoves.cfg, h.cfg], hposition h.position,
      (deliverable_iff t).mpr ⟨hirqAfter.elim (fun hkept => hkept.trans hirq) id, hidle hbusy⟩⟩
  have hplace := decoderStep_cyclePosition hstep
  exact ⟨t, ht, hexec ▸ ht, hreceives, hplace⟩

theorem cyclePosition_lt {s : State} (h : positionOk s.bitCount = true) : cyclePosition s < 22 := by
  have hlow := ((positionOk_iff _).mp h).1
  unfold cyclePosition
  cases s.edgePhase <;> simp only <;> omega

/-- The first edges of a frame, each the operation of the position it meets. -/
theorem inTurn_frameEdge (cells : BitVec 11) (n : Nat) {s : State} (h : Receives s) :
    ∃ t, inTurn (frameEdge cells) n s = .next t ∧ inTurn (frameEdgeExec cells) n s = .next t ∧ Receives t ∧
      cyclePosition t = (cyclePosition s + n) % 22 := by
  induction n with
  | zero => exact ⟨s, rfl, rfl, h, (Nat.mod_eq_of_lt (cyclePosition_lt h.position)).symm⟩
  | succ n ih =>
    obtain ⟨t, hedges, hexecs, ht, hplace⟩ := ih
    obtain ⟨u, hedge, hexec, hu, hnext⟩ := frameEdge_spec cells n ht
    refine ⟨u, ?_, ?_, hu, by omega⟩
    · rw [inTurn_succ, hedges, andThen_next, hedge]
    · rw [inTurn_succ, hexecs, andThen_next, hexec]

/-- A delivered edge in a position without meaning is refused (U12). -/
theorem deliverEdge_refused (pol : Polarity) (d : Level) {s : State} (hdeliver : deliverable s = true)
    (hposition : s.bitCount = 0#4 ∨ 11#4 < s.bitCount) :
    deliverEdge pol d s = .refused (.undecodable .decoderPosition) := by
  have hmoved : deliverable (movePins pol d s) = true := hdeliver
  have hnone : selectEdge (movePins pol d s).selector = none := selectEdge_eq_none hposition
  rw [deliverEdge, if_pos hmoved, decoderStep, hnone]

/-- Settles O58: a frame is its 22 edges in turn, which go once round the cycle; where a position has no meaning the first
of them is refused. -/
theorem frameDeliversItsEdges : Obligations.FrameDeliversItsEdges := by
  intro s cells hirq hbusy
  have hdeliver : deliverable s = true := (deliverable_iff s).mpr ⟨hirq, hbusy⟩
  refine ⟨fun hcfg hlow hhigh => ?_, fun hposition => ?_⟩
  · have hposition : positionOk s.bitCount = true := by simp [positionOk, armedCount, hlow, hhigh]
    obtain ⟨t, hedges, hexecs, -, hplace⟩ := inTurn_frameEdge cells 22 ⟨hcfg, hposition, hdeliver⟩
    have hround : (cyclePosition s + 22) % 22 = cyclePosition s := by
      rw [Nat.add_mod_right, Nat.mod_eq_of_lt (cyclePosition_lt hposition)]
    exact ⟨t, (deliverCells_eq_inTurn cells 11 s).trans hedges, hexecs, hplace.trans hround⟩
  · rw [exec, execFrame, frameCells_eq, List.range_succ_eq_map, List.map_cons, List.cons_append, deliverCells,
      deliverEdge_refused .fall _ hdeliver hposition]
    rfl

end Sys2Proof.Machine
end

section
/-! PROOFS. The prefixes, the recovery and the reserved bytes (41_translator.md sections 1, 2 and 8, 60_exceptions.md
section 2, 30_encoding.md section 3). -/

namespace Sys2Proof.Machine

/-! ### The prefixes (R103 to R105) -/

/-- Settles O25: two registers are written. -/
theorem extendedPrefixSetsExt : Obligations.ExtendedPrefixSetsExt := fun _ _ => rfl

/-- Settles O28: two registers are written. -/
theorem breakPrefixSetsReleased : Obligations.BreakPrefixSetsReleased := fun _ => rfl

theorem decodeCode_E0 {s : State} (h : s.ext = false) :
    decodeCode 0xE0#8 s = .next { s with ext := true, lastCode := 0xE0#8 } := by
  simp [decodeCode_eq_exec_classify, classify, State.selector, h, CodeClass.instr]
  rfl

theorem decodeCode_E0_dup {s : State} (h : s.ext = true) :
    decodeCode 0xE0#8 s = .next (raiseDesync .dupPrefix (s.setLastCode 0xE0#8)) := by
  simp [decodeCode_eq_exec_classify, classify, State.selector, h, CodeClass.instr]
  rfl

theorem decodeCode_F0 (s : State) : decodeCode 0xF0#8 s = .next { s with ts := .released, lastCode := 0xF0#8 } := by
  simp [decodeCode_eq_exec_classify, classify, CodeClass.instr]
  rfl

/-! ### The recovery (R172) -/

/-- The state after the recovery (R172): five registers cleared, every point open, one `Reset` on both traces. -/
def recovered (s : State) : State :=
  { s with ext := false, symHeld := false, digitApplied := false, rsHeld := false, rsPunctApplied := false,
           resetLine := s.cfg.resetActive.inv, sw := Memory.allOpen, trace := s.trace ++ [.reset],
           pinTrace := s.pinTrace ++ pinsOf s.cfg .reset }

theorem raiseDesync_eq_recovered (cause : Cause) (s : State) : raiseDesync cause s = recovered s := raiseDesync_eq s cause

/-- Settles O33: the recovery is the same for both causes. -/
theorem recoveryOpensAllAndClearsLatches : Obligations.RecoveryOpensAllAndClearsLatches := fun cause s =>
  ⟨recovered s, congrArg Host.Outcome.next (raiseDesync_eq_recovered cause s), rfl, Memory.read_allOpen⟩

/-- Settles O26: the recovery on the state with the byte noted. -/
theorem duplicatePrefixRecovers : Obligations.DuplicatePrefixRecovers := fun s _ =>
  ⟨recovered (s.setLastCode 0xE0#8), congrArg Host.Outcome.next (raiseDesync_eq_recovered .dupPrefix _), rfl,
    Memory.read_allOpen⟩

/-- Settles O31: the recovery on the state with the byte noted. -/
theorem badCodeRecovers : Obligations.BadCodeRecovers := fun code s =>
  ⟨recovered (s.setLastCode code), congrArg Host.Outcome.next (raiseDesync_eq_recovered .badCode _), rfl,
    Memory.read_allOpen⟩

/-- Settles O27: the first byte sets `ext`, so the second is the duplicate that recovers. -/
theorem twoExtendedPrefixesResetOnce : Obligations.TwoExtendedPrefixesResetOnce := by
  intro s hext
  refine ⟨_, _, decodeCode_E0 hext, decodeCode_E0_dup rfl, ?_⟩
  rw [raiseDesync_eq_recovered]
  exact ⟨rfl, rfl, rfl, Memory.closedAt_allOpen⟩

/-! ### `lastCode` (R101) -/

/-- `Decode` writes `lastCode` first and never reads it. -/
theorem decodeCode_setLastCode (code v : Byte) (s : State) : decodeCode code (s.setLastCode v) = decodeCode code s := by
  have hclass : classify (s.setLastCode v).selector code = classify s.selector code := rfl
  rw [decodeCode_eq_exec_classify, decodeCode_eq_exec_classify, hclass]
  cases classify s.selector code <;> rfl

/-- Settles O29: the two orders leave the same state but for `lastCode`, which the code that follows overwrites. -/
theorem prefixOrderDoesNotMatter : Obligations.PrefixOrderDoesNotMatter := by
  intro s c hext
  have hclear : ({ s with ts := .released, lastCode := 0xF0#8 } : State).ext = false := hext
  rw [decodeCode_E0 hext, decodeCode_F0, andThen_next, andThen_next, decodeCode_F0, decodeCode_E0 hclear, andThen_next,
    andThen_next]
  let both : State := { s with ext := true, ts := .released }
  exact (decodeCode_setLastCode c 0xF0#8 both).trans (decodeCode_setLastCode c 0xE0#8 both).symm

/-- Every operation of `Decode` but MACRO leaves the byte in `lastCode` (R101). -/
theorem decodeInPlay_lastCode {code : Byte} {s t : State} (h : decodeInPlay code s = .next t) : t.lastCode = code := by
  have hspec := classify_spec s.selector code
  unfold decodeInPlay at h
  cases hclass : classify s.selector code with
  | trigger => rw [hclass] at h; cases h
  | pfxE0 => rw [hclass] at h hspec; cases h; exact hspec.1.symm
  | pfxE0Dup => rw [hclass] at h hspec; cases h; rw [raiseDesync_eq]; exact hspec.1.symm
  | pfxF0 => rw [hclass] at h hspec; cases h; exact hspec.symm
  | rshiftMake => rw [hclass] at h hspec; cases (execRshiftMake_eq s).symm.trans h; exact hspec.symm
  | rshiftBreak => rw [hclass] at h hspec; cases (execRshiftBreak_eq s).symm.trans h; exact hspec.symm
  | keyMake => rw [hclass] at h; cases (execKeyMake_eq code s).symm.trans h; exact afterItems_lastCode _ _
  | keyBreak => rw [hclass] at h; cases (execKeyBreak_eq code s).symm.trans h; exact afterItems_lastCode _ _
  | bad => rw [hclass] at h; cases h; rw [raiseDesync_eq]; rfl

/-- A byte that is no trigger is decoded as in a playback. -/
theorem decodeCode_eq_decodeInPlay {code : Byte} {s : State} (h : isTrigger s.cfg code = false) :
    decodeCode code s = decodeInPlay code s := by
  obtain ⟨htrigger, -⟩ | ⟨-, heq, -⟩ := decodeCode_cases code s
  · have htrue : isTrigger s.cfg code = true := ((classify_trigger_iff _ _).mp htrigger).2.2
    rw [h] at htrue
    cases htrue
  · exact heq

/-- Settles O24: a byte that is no trigger is decoded as in a playback, where every operation notes it. -/
theorem lastCodeHoldsTheDecodedByte : Obligations.LastCodeHoldsTheDecodedByte := fun _ _ _ hplain h =>
  decodeInPlay_lastCode ((decodeCode_eq_decodeInPlay hplain).symm.trans h)

/-! ### The reserved bytes (30_encoding.md section 3) -/

/-- The key range of a legal configuration ends at 0xE0 or below (R5). -/
theorem Config.codeHi_le {c : Config} (h : c.wf = true) : c.codeHi ≤ 0xE0#8 := by
  simp only [Config.wf, Config.rangeOk, Bool.and_eq_true, decide_eq_true_eq] at h
  exact h.1.1.1.1.1.1.1.2

/-- No reserved byte is in the key range, whose bounds are exclusive. -/
theorem inKeyRange_reserved {c : Config} (hcfg : c.wf = true) {code : Byte} (h : code = 0x00#8 ∨ 0xE1#8 ≤ code) :
    inKeyRange c code = false := by
  have hhigh := Config.codeHi_le hcfg
  rw [← Bool.not_eq_true, inKeyRange_iff]
  rintro ⟨hlo, hhi⟩
  rcases h with rfl | h <;> bv_omega

/-- Settles O32: a reserved byte fails every test of the dispatch before the last. -/
theorem reservedBytesAreBadCodes : Obligations.ReservedBytesAreBadCodes := by
  intro code s hcfg hreserved hF0 htrigger hrshift
  have hE0 : code ≠ 0xE0#8 := by
    rintro rfl
    revert hreserved
    decide
  have hclass : classify s.selector code = .bad := by
    simp [classify, State.selector, hE0, hF0, htrigger, hrshift, inKeyRange_reserved hcfg hreserved]
  rw [decodeCode_eq_exec_classify, hclass, CodeClass.instr]

end Sys2Proof.Machine
end

section
/-! PROOFS. The playback (43_macro_player.md section 2) and MACRO (41_translator.md section 3). -/

namespace Sys2Proof.Machine

/-! ### The sequence: its entries and its sentinel (R65, R161) -/

theorem seqEntries_append {entries : List Byte} (h : ∀ e ∈ entries, e ≠ 0x00#8) (junk : List Byte) :
    seqEntries (entries ++ 0x00#8 :: junk) = entries := by
  rw [seqEntries, List.takeWhile_append_of_pos fun e he => by simpa using h e he]
  simp

theorem seqTerminated_append (entries junk : List Byte) : seqTerminated (entries ++ 0x00#8 :: junk) = true := by
  simp [seqTerminated]

/-- A playback of a terminated sequence: its entries between the mask and the unmask (R161). -/
theorem play_append {entries : List Byte} (h : ∀ e ∈ entries, e ≠ 0x00#8) (junk : List Byte) (s : State) :
    play (entries ++ 0x00#8 :: junk) s =
      andThen (playEntries entries (s.setIrqEn false)) fun u => .next (u.setIrqEn true) := by
  rw [play, if_pos (seqTerminated_append entries junk), seqEntries_append h]

/-- Settles O51: with no entries only the mask and the unmask are left. -/
theorem emptyPlaybackOnlyEnablesInterrupt : Obligations.EmptyPlaybackOnlyEnablesInterrupt := fun s =>
  play_append (entries := []) nofun [] s

/-- Settles O49: the loop is the left fold of the entries, each of which completes and keeps the mask. -/
theorem playbackPlaysEntriesMasked : Obligations.PlaybackPlaysEntriesMasked := by
  intro entries junk s _ hentries
  have hnonzero : ∀ e ∈ entries, e ≠ 0x00#8 := fun e he => (hentries e he).1
  obtain ⟨u, hu, htrans, hirq⟩ :=
    playEntries_completes (cs := entries) (s := s.setIrqEn false) fun e he => (hentries e he).2
  refine ⟨u, ?_, hirq, ?_, htrans.decoder, htrans.busy, htrans.cfg, htrans.inputs, htrans.ps2Clk, htrans.ps2Dat⟩
  · rw [playEntries_foldl]
    exact hu
  · rw [exec, execMacroPlay, play_append hnonzero, hu]
    rfl

/-! ### One entry (R162) -/

theorem decodeInPlay_cfg {code : Byte} {s t : State} (h : decodeInPlay code s = .next t) : t.cfg = s.cfg := by
  obtain ⟨-, hrefused⟩ | ⟨-, hcompletes⟩ := decodeInPlay_cases code s
  · rw [hrefused] at h; cases h
  · exact (hcompletes.translates h).cfg

theorem andThen_congr {o o' : Outcome} {f g : State → Outcome} (ho : o = o') (hfg : ∀ t, o = .next t → f t = g t) :
    andThen o f = andThen o' g := by
  subst ho
  cases o with
  | next t => exact hfg t rfl
  | fault r => rfl
  | refused r => rfl

/-- Settles O50: an entry that is no trigger is decoded by `Decode` each time, under the same configuration. -/
theorem playbackEntryIsFourDecodes : Obligations.PlaybackEntryIsFourDecodes := by
  intro c s _ hplain
  simp only [andThen_assoc, andThen_next, ← delay_eq]
  refine andThen_congr (decodeCode_eq_decodeInPlay hplain).symm fun t ht => ?_
  have htcfg := decodeInPlay_cfg ht
  refine andThen_congr ((decodeInPlay_F0 _).trans (decodeCode_F0 _).symm) fun u hu => ?_
  have hucfg : u.cfg = s.cfg := (decodeInPlay_cfg hu).trans htcfg
  refine andThen_congr (decodeCode_eq_decodeInPlay (by rw [hucfg, hplain])).symm fun v hv => ?_
  have hvcfg : v.cfg = s.cfg := (decodeInPlay_cfg hv).trans hucfg
  exact andThen_congr (decodeCode_eq_decodeInPlay (by rw [hvcfg, hplain])).symm fun _ _ => rfl

/-! ### A playback of key codes (90_conflicts.md C9) -/

/-- A code that selects a `KEY` operation, whatever the state (R68). -/
structure IsKeyCode (c : Config) (code : Byte) : Prop where
  notTrigger : isTrigger c code = false
  notRshift : code ≠ c.rshiftCode
  range : inKeyRange c code = true

theorem classify_keyCode {sel : Selector} {code : Byte} (hcfg : sel.cfg.wf = true) (h : IsKeyCode sel.cfg code) :
    classify sel code = if sel.ts = .released then .keyBreak else .keyMake := by
  have hhigh := Config.codeHi_le hcfg
  obtain ⟨-, hbelow⟩ := (inKeyRange_iff _ _).mp h.range
  have hlt : code < 0xE0#8 := by bv_omega
  have hE0 : code ≠ 0xE0#8 := by rintro rfl; exact absurd hlt (by decide)
  have hF0 : code ≠ 0xF0#8 := by rintro rfl; exact absurd hlt (by decide)
  simp [classify, hE0, hF0, h.notTrigger, h.notRshift, h.range]

/-- A key code in a playback: the break form under a pending break, the make form otherwise. -/
theorem decodeInPlay_keyCode {s : State} {code : Byte} (hcfg : s.cfg.wf = true) (h : IsKeyCode s.cfg code) :
    decodeInPlay code s = if s.ts = .released then execKeyBreak code s else execKeyMake code s := by
  have hclass : classify s.selector code = if s.ts = .released then .keyBreak else .keyMake := classify_keyCode hcfg h
  rw [decodeInPlay, hclass]
  by_cases hts : s.ts = .released
  · rw [if_pos hts, if_pos hts]
  · rw [if_neg hts, if_neg hts]

theorem execKeyBreak_ts {s t : State} {code : Byte} (h : execKeyBreak code s = .next t) : t.ts = .idle := by
  cases (execKeyBreak_eq code s).symm.trans h
  simp [keyRegs]

theorem execKeyMake_regs {s t : State} {code : Byte} (h : execKeyMake code s = .next t) :
    t.ts = .pressed ∧ t.ext = false ∧ t.lastCode = code := by
  cases (execKeyMake_eq code s).symm.trans h
  simp [keyRegs]

/-- The entry of a key code ends with its second press (R162). -/
theorem playEntry_keyCode {s t : State} {code : Byte} (hcfg : s.cfg.wf = true) (h : IsKeyCode s.cfg code)
    (ht : playEntry code s = .next t) : t.ts = .pressed ∧ t.ext = false ∧ t.lastCode = code := by
  obtain ⟨pressed, hpressed, ht⟩ := andThen_eq_next.mp ht
  obtain ⟨marked, hmarked, ht⟩ := andThen_eq_next.mp ht
  obtain ⟨released, hreleased, ht⟩ := andThen_eq_next.mp ht
  obtain ⟨again, hagain, ht⟩ := andThen_eq_next.mp ht
  have hpressedCfg := decodeInPlay_cfg hpressed
  have hmarkedCfg : marked.cfg = s.cfg := (decodeInPlay_cfg hmarked).trans hpressedCfg
  have hreleasedCfg : released.cfg = s.cfg := (decodeInPlay_cfg hreleased).trans hmarkedCfg
  have hmarkedTs : marked.ts = .released := by
    cases (decodeInPlay_F0 _).symm.trans hmarked
    rfl
  rw [decodeInPlay_keyCode (hmarkedCfg ▸ hcfg) (hmarkedCfg ▸ h), if_pos hmarkedTs] at hreleased
  have hreleasedTs : released.ts ≠ .released := by simp [execKeyBreak_ts hreleased]
  rw [decodeInPlay_keyCode (hreleasedCfg ▸ hcfg) (hreleasedCfg ▸ h), if_neg hreleasedTs] at hagain
  have hregs := execKeyMake_regs hagain
  cases ht
  exact hregs

theorem playEntries_concat (cs : List Byte) (c : Byte) (s : State) :
    playEntries (cs ++ [c]) s = andThen (playEntries cs s) (playEntry c) := by
  induction cs generalizing s with
  | nil =>
    have hend : playEntries [] = Host.Outcome.next := funext fun _ => rfl
    change andThen (playEntry c s) (playEntries []) = playEntry c s
    rw [hend, andThen_next_right]
  | cons d ds ih =>
    have hrest := funext ih
    simp only [List.cons_append, playEntries, hrest, andThen_assoc]

/-- Settles O52: the last entry is a key code, and ends with its second press. -/
theorem playbackEndsPressed : Obligations.PlaybackEndsPressed := by
  intro entries last s t hcfg hentries h
  have hnonzero : ∀ e ∈ entries ++ [last], e ≠ 0x00#8 := fun e he => (hentries e he).1
  obtain ⟨-, htrigger, hrshift, hrange⟩ := hentries last (by simp)
  have hkey : IsKeyCode s.cfg last := ⟨htrigger, hrshift, (inKeyRange_iff _ _).mpr hrange⟩
  have hplay : play ((entries ++ [last]) ++ 0x00#8 :: []) s = .next t := by
    rw [List.append_assoc]
    exact h
  rw [play_append hnonzero] at hplay
  obtain ⟨u, hu, ht⟩ := andThen_eq_next.mp hplay
  cases ht
  rw [playEntries_concat] at hu
  obtain ⟨v, hv, hu⟩ := andThen_eq_next.mp hu
  have hvcfg : v.cfg = s.cfg := (playEntries_spec hv).1.cfg
  obtain ⟨hts, hext, hlast⟩ := playEntry_keyCode (hvcfg ▸ hcfg) (hvcfg ▸ hkey) hu
  exact ⟨hts, hext, hlast, rfl⟩

/-! ### Sequences without a meaning (R65, R164) -/

/-- What a legal configuration says of its triggers (R5): they are distinct, and none is 0xE0 or 0xF0. -/
theorem Config.wf_triggers {c : Config} (h : c.wf = true) :
    (c.macros.map MacroEntry.trigger).Nodup ∧ ∀ m ∈ c.macros, m.trigger ≠ 0xE0#8 ∧ m.trigger ≠ 0xF0#8 := by
  have hmacros : c.macrosOk = true := by
    simp only [Config.wf, Bool.and_eq_true] at h
    exact h.1.1.2
  simp only [Config.macrosOk, Bool.and_eq_true, decide_eq_true_eq, List.all_eq_true, bne_iff_ne] at hmacros
  obtain ⟨hdistinct, hall⟩ := hmacros
  refine ⟨hdistinct, fun m hm => ?_⟩
  obtain ⟨⟨⟨-, hE0⟩, hF0⟩, -⟩ := hall m hm
  exact ⟨hE0, hF0⟩

theorem Config.trigger_ne_E0_F0 {c : Config} (h : c.wf = true) {code : Byte} (htrigger : isTrigger c code = true) :
    code ≠ 0xE0#8 ∧ code ≠ 0xF0#8 := by
  obtain ⟨m, hm, rfl⟩ := (isTrigger_iff_exists_mem c code).mp htrigger
  exact (Config.wf_triggers h).2 m hm

/-- A trigger among the entries is refused where it is met. -/
theorem playEntries_refused {cs : List Byte} {s : State} (hcfg : s.cfg.wf = true)
    (h : ∃ e ∈ cs, isTrigger s.cfg e = true) : playEntries cs s = .refused .recursivePlayback := by
  induction cs generalizing s with
  | nil => simp at h
  | cons c cs ih =>
    cases htrigger : isTrigger s.cfg c with
    | true =>
      have hclass : classify s.selector c = .trigger := (classify_trigger_iff _ _).mpr
        ⟨(Config.trigger_ne_E0_F0 hcfg htrigger).1, (Config.trigger_ne_E0_F0 hcfg htrigger).2, htrigger⟩
      simp [playEntries, playEntry, decodeInPlay, hclass, andThen]
    | false =>
      obtain ⟨t, ht, htrans, -⟩ := playEntry_completes htrigger
      obtain ⟨e, he, hetrigger⟩ := h
      have hmem : e ∈ cs := (List.mem_cons.mp he).resolve_left fun heq => by simp [heq ▸ hetrigger] at htrigger
      rw [playEntries, ht, andThen_next]
      exact ih (htrans.cfg ▸ hcfg) ⟨e, hmem, htrans.cfg ▸ hetrigger⟩

/-- Settles O53: the loop reaches the first trigger, and a sequence with no zero is refused before it. -/
theorem recursiveOrUnterminatedPlaybackIsRefused : Obligations.RecursiveOrUnterminatedPlaybackIsRefused := by
  intro seq s hcfg
  have hterminated : seqTerminated seq = true ↔ 0x00#8 ∈ seq := List.contains_iff_mem
  refine ⟨fun hnot => ?_, fun hmem htrigger => ?_⟩
  · rw [exec, execMacroPlay, play, if_neg (hnot ∘ hterminated.mp)]
  · rw [exec, execMacroPlay, play, if_pos (hterminated.mpr hmem), 
      playEntries_refused (s := s.setIrqEn false) hcfg htrigger, andThen]

/-! ### MACRO (R106) -/

/-- The triggers of a legal configuration are distinct (R5), so the entry of a trigger is found by it. -/
theorem macroFor_trigger {c : Config} (h : c.wf = true) {m : MacroEntry} (hm : m ∈ c.macros) :
    macroFor c m.trigger = some m := by
  obtain ⟨found, hfound⟩ : ∃ found, macroFor c m.trigger = some found :=
    Option.isSome_iff_exists.mp ((isTrigger_iff_exists_mem c m.trigger).mpr ⟨m, hm, rfl⟩)
  obtain ⟨hmem, htrigger⟩ := macroFor_mem hfound
  rw [hfound, List.inj_on_of_nodup_map (Config.wf_triggers h).1 hmem hm htrigger]

/-- Settles O54: the entry found is the one the trigger belongs to, and its sequence can be played. -/
theorem macroPlaysItsBoundSequence : Obligations.MacroPlaysItsBoundSequence := by
  intro s
  refine ⟨fun m hm hcfg => ⟨?_, ?_⟩, fun code hcode => ?_⟩
  · rw [exec, execMacroTrigger, macroFor_trigger hcfg hm]
    rfl
  · exact execMacroTrigger_completes hcfg ((isTrigger_iff_exists_mem _ _).mpr ⟨m, hm, rfl⟩)
  · have hnone : macroFor s.cfg code = none := by simpa [isTrigger] using hcode
    rw [exec, execMacroTrigger, hnone]

end Sys2Proof.Machine
end
